-- ==== Sys2Proof/Word.lean ====
section
/-! DEFINITION. The machine word and its plainest arithmetic (spec/00_scope.md section 6, rules R2 and R3). -/

namespace Sys2Proof

/-- A register, a memory word, an address or an instruction: 16 bits, numbered 15 down to 0 (00_scope.md 6.1). -/
abbrev Word := BitVec 16

/-- A console character or a byte of a program image: 8 bits (`CHAR_BITS`, 00_scope.md section 4). -/
abbrev Byte := BitVec 8

/-- Rule R2: the one addition of the hardware, modulo 65536, with no carry or overflow kept. -/
def add16 (a b : Word) : Word := a + b

/-- Rule R3: a narrower value with zeros in every higher bit. -/
def zext16 {n : Nat} (v : BitVec n) : Word := v.setWidth 16

end Sys2Proof
end

