-- ==== Sys2Proof/Syntax.lean ====
section
/-! DEFINITION. The instructions, one constructor for each row of spec/opcode_table.json: the 19 forms of rule R57
and the six rows that refine TRAP by its vector. Bits that rule R55 calls ignored are no part of the syntax. -/

namespace Sys2Proof

/-- R53: a register field, an unsigned index 0 to 7 naming R0 to R7; all eight values are legal. -/
abbrev Reg := Fin 8

/-- The register a 3-bit field names (R53). -/
def Reg.ofBits (b : BitVec 3) : Reg := b.toFin

/-- The 3-bit field that names a register (R53). -/
def Reg.bits (r : Reg) : BitVec 3 := BitVec.ofFin r

inductive Instr where
  /-- BR, R100. -/
  | br (cond : BitVec 3) (pcoffset9 : BitVec 9)
  /-- ADD, register form, R80. -/
  | addReg (dr sr1 sr2 : Reg)
  /-- ADD, immediate form, R81. -/
  | addImm (dr sr1 : Reg) (imm5 : BitVec 5)
  /-- LD, R90. -/
  | ld (dr : Reg) (pcoffset9 : BitVec 9)
  /-- ST, R91. -/
  | st (sr : Reg) (pcoffset9 : BitVec 9)
  /-- JSR, the flag = 1 form of opcode 4, R102. -/
  | jsr (pcoffset11 : BitVec 11)
  /-- JSRR, the flag = 0 form of opcode 4, R103. -/
  | jsrr (baseR : Reg)
  /-- AND, register form, R82. -/
  | andReg (dr sr1 sr2 : Reg)
  /-- AND, immediate form, R83. -/
  | andImm (dr sr1 : Reg) (imm5 : BitVec 5)
  /-- LDR, R92. -/
  | ldr (dr baseR : Reg) (offset6 : BitVec 6)
  /-- STR, R93. -/
  | str (sr baseR : Reg) (offset6 : BitVec 6)
  /-- RTI, R125. -/
  | rti
  /-- NOT, R84. -/
  | notReg (dr sr : Reg)
  /-- LDI, R94. -/
  | ldi (dr : Reg) (pcoffset9 : BitVec 9)
  /-- STI, R95. -/
  | sti (sr : Reg) (pcoffset9 : BitVec 9)
  /-- JMP (RET is JMP R7), R101. -/
  | jmp (baseR : Reg)
  /-- RES, R126. -/
  | res
  /-- LEA, R96. -/
  | lea (dr : Reg) (pcoffset9 : BitVec 9)
  /-- TRAP with a vector that selects no routine, R110 and R117 (the six vectors with a routine are the rows below). -/
  | trap (vector : BitVec 8)
  /-- TRAP 0x20, GETC, R111. -/
  | getc
  /-- TRAP 0x21, OUT, R112. -/
  | out
  /-- TRAP 0x22, PUTS, R113. -/
  | puts
  /-- TRAP 0x23, IN, R114. -/
  | inp
  /-- TRAP 0x24, PUTSP, R115. -/
  | putsp
  /-- TRAP 0x25, HALT, R116. -/
  | halt
  deriving DecidableEq, Repr

end Sys2Proof
end

