-- ==== Sys2Proof/WellFormed.lean ====
section
/-! DEFINITION. Which terms of `Instr` are instructions. The field widths are in the types and every value of every
field is legal (R53 to R55), so one check is left: the six vectors 0x20 to 0x25 are spelled by their own rows. -/

namespace Sys2Proof

/-- R56: the vector selects none of the six routines. -/
def vectorHasNoRoutine (vector : BitVec 8) : Bool :=
  decide (vector < 0x20#8) || decide (0x25#8 < vector)

def Instr.wf : Instr → Bool
  | .br _ _ => true
  | .addReg _ _ _ => true
  | .addImm _ _ _ => true
  | .ld _ _ => true
  | .st _ _ => true
  | .jsr _ => true
  | .jsrr _ => true
  | .andReg _ _ _ => true
  | .andImm _ _ _ => true
  | .ldr _ _ _ => true
  | .str _ _ _ => true
  | .rti => true
  | .notReg _ _ => true
  | .ldi _ _ => true
  | .sti _ _ => true
  | .jmp _ => true
  | .res => true
  | .lea _ _ => true
  | .trap vector => vectorHasNoRoutine vector
  | .getc => true
  | .out => true
  | .puts => true
  | .inp => true
  | .putsp => true
  | .halt => true

end Sys2Proof
end

