-- ==== Sys2Proof/Decode.lean ====
section
/-! DEFINITION. Decoding (rules R50 to R58), total on every word, then the encoder written from the same layouts, and
the opcode table with its masks and patterns. -/

namespace Sys2Proof

/-! ## The fields of an instruction word (R52) -/

/-- ir[15:12], the opcode. -/
def opcodeOf (ir : Word) : BitVec 4 := ir.extractLsb' 12 4

/-- ir[11:9] as a register: `dr`, or `sr` of the stores. -/
def regHi (ir : Word) : Reg := Reg.ofBits (ir.extractLsb' 9 3)

/-- ir[8:6] as a register: `sr1`, `base_r`, or `sr` of NOT. -/
def regMid (ir : Word) : Reg := Reg.ofBits (ir.extractLsb' 6 3)

/-- ir[2:0] as a register: `sr2`. -/
def regLo (ir : Word) : Reg := Reg.ofBits (ir.extractLsb' 0 3)

/-- ir[11:9] as the condition mask of BR. -/
def condField (ir : Word) : BitVec 3 := ir.extractLsb' 9 3

/-- ir[4:0]. -/
def imm5Field (ir : Word) : BitVec 5 := ir.extractLsb' 0 5

/-- ir[5:0]. -/
def offset6Field (ir : Word) : BitVec 6 := ir.extractLsb' 0 6

/-- ir[8:0]. -/
def pcoffset9Field (ir : Word) : BitVec 9 := ir.extractLsb' 0 9

/-- ir[10:0]. -/
def pcoffset11Field (ir : Word) : BitVec 11 := ir.extractLsb' 0 11

/-- ir[7:0], the trap vector. -/
def vectorField (ir : Word) : BitVec 8 := ir.extractLsb' 0 8

/-- ir[5], the `imm` bit of ADD and AND. -/
def immBit (ir : Word) : Bool := ir.getLsbD 5

/-- ir[11], the `flag` bit of opcode 4. -/
def flagBit (ir : Word) : Bool := ir.getLsbD 11

/-- R56, R57: the refinement of TRAP by its vector. -/
def decodeTrap (vector : BitVec 8) : Instr :=
  if vector = 0x20#8 then .getc
  else if vector = 0x21#8 then .out
  else if vector = 0x22#8 then .puts
  else if vector = 0x23#8 then .inp
  else if vector = 0x24#8 then .putsp
  else if vector = 0x25#8 then .halt
  else .trap vector

/-- R57: every word is exactly one instruction; nothing is rejected. -/
def decode (ir : Word) : Instr :=
  match opcodeOf ir with
  | 0b0000#4 => .br (condField ir) (pcoffset9Field ir)
  | 0b0001#4 => if immBit ir then .addImm (regHi ir) (regMid ir) (imm5Field ir) else .addReg (regHi ir) (regMid ir) (regLo ir)
  | 0b0010#4 => .ld (regHi ir) (pcoffset9Field ir)
  | 0b0011#4 => .st (regHi ir) (pcoffset9Field ir)
  | 0b0100#4 => if flagBit ir then .jsr (pcoffset11Field ir) else .jsrr (regMid ir)
  | 0b0101#4 => if immBit ir then .andImm (regHi ir) (regMid ir) (imm5Field ir) else .andReg (regHi ir) (regMid ir) (regLo ir)
  | 0b0110#4 => .ldr (regHi ir) (regMid ir) (offset6Field ir)
  | 0b0111#4 => .str (regHi ir) (regMid ir) (offset6Field ir)
  | 0b1000#4 => .rti
  | 0b1001#4 => .notReg (regHi ir) (regMid ir)
  | 0b1010#4 => .ldi (regHi ir) (pcoffset9Field ir)
  | 0b1011#4 => .sti (regHi ir) (pcoffset9Field ir)
  | 0b1100#4 => .jmp (regMid ir)
  | 0b1101#4 => .res
  | 0b1110#4 => .lea (regHi ir) (pcoffset9Field ir)
  | _ => decodeTrap (vectorField ir) -- 0b1111, the one value left

/-! ## The encoder -/

/-- The word of an instruction, laid out as in R52. Ignored bits are 0, but for NOT's 111111 (R55). -/
def encode : Instr → Word
  | .br cond off => 0b0000#4 ++ cond ++ off
  | .addReg dr sr1 sr2 => 0b0001#4 ++ dr.bits ++ sr1.bits ++ 0b0#1 ++ 0b00#2 ++ sr2.bits
  | .addImm dr sr1 imm5 => 0b0001#4 ++ dr.bits ++ sr1.bits ++ 0b1#1 ++ imm5
  | .ld dr off => 0b0010#4 ++ dr.bits ++ off
  | .st sr off => 0b0011#4 ++ sr.bits ++ off
  | .jsr off => 0b0100#4 ++ 0b1#1 ++ off
  | .jsrr baseR => 0b0100#4 ++ 0b0#1 ++ 0b00#2 ++ baseR.bits ++ 0b000000#6
  | .andReg dr sr1 sr2 => 0b0101#4 ++ dr.bits ++ sr1.bits ++ 0b0#1 ++ 0b00#2 ++ sr2.bits
  | .andImm dr sr1 imm5 => 0b0101#4 ++ dr.bits ++ sr1.bits ++ 0b1#1 ++ imm5
  | .ldr dr baseR off => 0b0110#4 ++ dr.bits ++ baseR.bits ++ off
  | .str sr baseR off => 0b0111#4 ++ sr.bits ++ baseR.bits ++ off
  | .rti => 0b1000#4 ++ 0b000000000000#12
  | .notReg dr sr => 0b1001#4 ++ dr.bits ++ sr.bits ++ 0b111111#6
  | .ldi dr off => 0b1010#4 ++ dr.bits ++ off
  | .sti sr off => 0b1011#4 ++ sr.bits ++ off
  | .jmp baseR => 0b1100#4 ++ 0b000#3 ++ baseR.bits ++ 0b000000#6
  | .res => 0b1101#4 ++ 0b000000000000#12
  | .lea dr off => 0b1110#4 ++ dr.bits ++ off
  | .trap vector => 0b1111#4 ++ 0b0000#4 ++ vector
  | .getc => 0b1111#4 ++ 0b0000#4 ++ 0x20#8
  | .out => 0b1111#4 ++ 0b0000#4 ++ 0x21#8
  | .puts => 0b1111#4 ++ 0b0000#4 ++ 0x22#8
  | .inp => 0b1111#4 ++ 0b0000#4 ++ 0x23#8
  | .putsp => 0b1111#4 ++ 0b0000#4 ++ 0x24#8
  | .halt => 0b1111#4 ++ 0b0000#4 ++ 0x25#8

/-! ## The opcode table -/

/-- A row of spec/opcode_table.json: a word `w` selects it when `w AND mask = pattern`. -/
structure Row where
  mnemonic : String
  mask : Word
  pattern : Word
  deriving DecidableEq, Repr

def Row.selects (r : Row) (w : Word) : Bool := w &&& r.mask == r.pattern

/-- The first ten of the 19 forms of R57. -/
def formRowsLow : List Row :=
  [⟨"BR", 0xF000, 0x0000⟩, ⟨"ADD", 0xF020, 0x1000⟩, ⟨"ADD", 0xF020, 0x1020⟩, ⟨"LD", 0xF000, 0x2000⟩,
   ⟨"ST", 0xF000, 0x3000⟩, ⟨"JSR", 0xF800, 0x4800⟩, ⟨"JSRR", 0xF800, 0x4000⟩, ⟨"AND", 0xF020, 0x5000⟩,
   ⟨"AND", 0xF020, 0x5020⟩, ⟨"LDR", 0xF000, 0x6000⟩]

/-- The other nine. -/
def formRowsHigh : List Row :=
  [⟨"STR", 0xF000, 0x7000⟩, ⟨"RTI", 0xF000, 0x8000⟩, ⟨"NOT", 0xF000, 0x9000⟩, ⟨"LDI", 0xF000, 0xA000⟩,
   ⟨"STI", 0xF000, 0xB000⟩, ⟨"JMP", 0xF000, 0xC000⟩, ⟨"RES", 0xF000, 0xD000⟩, ⟨"LEA", 0xF000, 0xE000⟩,
   ⟨"TRAP", 0xF000, 0xF000⟩]

/-- The 19 forms, of which every word selects exactly one (R57). -/
def formRows : List Row := formRowsLow ++ formRowsHigh

/-- The six rows that refine TRAP by its vector (30_encoding.md, opening). -/
def trapRows : List Row :=
  [⟨"GETC", 0xF0FF, 0xF020⟩, ⟨"OUT", 0xF0FF, 0xF021⟩, ⟨"PUTS", 0xF0FF, 0xF022⟩,
   ⟨"IN", 0xF0FF, 0xF023⟩, ⟨"PUTSP", 0xF0FF, 0xF024⟩, ⟨"HALT", 0xF0FF, 0xF025⟩]

/-- The row an instruction's words are listed under. -/
def Instr.row : Instr → Row
  | .br _ _ => ⟨"BR", 0xF000, 0x0000⟩
  | .addReg _ _ _ => ⟨"ADD", 0xF020, 0x1000⟩
  | .addImm _ _ _ => ⟨"ADD", 0xF020, 0x1020⟩
  | .ld _ _ => ⟨"LD", 0xF000, 0x2000⟩
  | .st _ _ => ⟨"ST", 0xF000, 0x3000⟩
  | .jsr _ => ⟨"JSR", 0xF800, 0x4800⟩
  | .jsrr _ => ⟨"JSRR", 0xF800, 0x4000⟩
  | .andReg _ _ _ => ⟨"AND", 0xF020, 0x5000⟩
  | .andImm _ _ _ => ⟨"AND", 0xF020, 0x5020⟩
  | .ldr _ _ _ => ⟨"LDR", 0xF000, 0x6000⟩
  | .str _ _ _ => ⟨"STR", 0xF000, 0x7000⟩
  | .rti => ⟨"RTI", 0xF000, 0x8000⟩
  | .notReg _ _ => ⟨"NOT", 0xF000, 0x9000⟩
  | .ldi _ _ => ⟨"LDI", 0xF000, 0xA000⟩
  | .sti _ _ => ⟨"STI", 0xF000, 0xB000⟩
  | .jmp _ => ⟨"JMP", 0xF000, 0xC000⟩
  | .res => ⟨"RES", 0xF000, 0xD000⟩
  | .lea _ _ => ⟨"LEA", 0xF000, 0xE000⟩
  | .trap _ => ⟨"TRAP", 0xF000, 0xF000⟩
  | .getc => ⟨"GETC", 0xF0FF, 0xF020⟩
  | .out => ⟨"OUT", 0xF0FF, 0xF021⟩
  | .puts => ⟨"PUTS", 0xF0FF, 0xF022⟩
  | .inp => ⟨"IN", 0xF0FF, 0xF023⟩
  | .putsp => ⟨"PUTSP", 0xF0FF, 0xF024⟩
  | .halt => ⟨"HALT", 0xF0FF, 0xF025⟩

/-- The bits of an instruction's words that belong to a field (R52), the opcode's among them; R55 ignores the rest. -/
def Instr.namedBits : Instr → Word
  | .br _ _ => 0xFFFF
  | .addReg _ _ _ => 0xFFE7
  | .addImm _ _ _ => 0xFFFF
  | .ld _ _ => 0xFFFF
  | .st _ _ => 0xFFFF
  | .jsr _ => 0xFFFF
  | .jsrr _ => 0xF9C0
  | .andReg _ _ _ => 0xFFE7
  | .andImm _ _ _ => 0xFFFF
  | .ldr _ _ _ => 0xFFFF
  | .str _ _ _ => 0xFFFF
  | .rti => 0xF000
  | .notReg _ _ => 0xFFC0
  | .ldi _ _ => 0xFFFF
  | .sti _ _ => 0xFFFF
  | .jmp _ => 0xF1C0
  | .res => 0xF000
  | .lea _ _ => 0xFFFF
  | .trap _ => 0xF0FF
  | .getc => 0xF0FF
  | .out => 0xF0FF
  | .puts => 0xF0FF
  | .inp => 0xF0FF
  | .putsp => 0xF0FF
  | .halt => 0xF0FF

/-- The instruction the decoder reads from an instruction given as `nbits` bits of the value `w`, bit 0 the least
significant bit of its one word (R50: "Every instruction is exactly one 16-bit word"). Bits above `nbits` are 0;
a value that does not fit, or more than one word, is no instruction. -/
def decodeTableWord (nbits w : Nat) : Option Instr :=
  if nbits ≤ 16 ∧ w < 2 ^ nbits then some (decode (BitVec.ofNat 16 w)) else none

end Sys2Proof
end

