-- ==== Sys2Proof/Config.lean ====
section
/-! DEFINITION. The named parameters that the spec leaves to the implementation (spec/00_scope.md section 4, the
OPEN decisions D3, D5(b), D12, D13 of spec/92_eei_decisions.md). A state carries one value of this type, which no
step changes, so that a statement about every state is a statement about every setting of the parameters. The
default values stand in Machine/Params.lean. -/

namespace Sys2Proof

structure Config where
  /-- `KBSR_ADDR`: the address of the keyboard-status register (R19, D3). -/
  kbsrAddr : Word
  /-- `KBDR_ADDR`: the address of the keyboard-data register (R19, D3). -/
  kbdrAddr : Word
  /-- `HALT_NOTICE`: the bytes the HALT routine emits (R116, D12). -/
  haltNotice : List Byte
  /-- `IN_PROMPT`: the bytes the IN routine emits before it reads (R114, D13). -/
  inPrompt : List Byte
  /-- `TRAP_READS_GATED`: whether the string reads of PUTS and PUTSP pass the I/O gate (R120, D5(b)). -/
  trapReadsGated : Bool
  deriving DecidableEq, Repr

/-- R19: the two device addresses are "required to be different from each other". -/
def Config.wf (c : Config) : Bool := c.kbsrAddr != c.kbdrAddr

end Sys2Proof
end

