-- ==== Sys2Proof/Machine/Params.lean ====
section
/-! DEFINITION. The default values of the named parameters (spec/00_scope.md section 4). -/

namespace Sys2Proof.Machine

/-- D3: 0xFE00. PRESUMED (the LC-3 family's; the source gives no address), assumption 7. -/
def defaultKbsrAddr : Word := 0xFE00

/-- D3: 0xFE02. PRESUMED, assumption 7. -/
def defaultKbdrAddr : Word := 0xFE02

/-- D12: the five bytes "HALT" and a line feed. PRESUMED, assumption 7. -/
def defaultHaltNotice : List Byte := [0x48, 0x41, 0x4C, 0x54, 0x0A]

/-- D13: the 19 bytes "Enter a character: ". PRESUMED, assumption 7. -/
def defaultInPrompt : List Byte :=
  [0x45, 0x6E, 0x74, 0x65, 0x72, 0x20, 0x61, 0x20, 0x63, 0x68] ++
  [0x61, 0x72, 0x61, 0x63, 0x74, 0x65, 0x72, 0x3A, 0x20]

/-- The spec's defaults, D5(b)'s `true` among them. -/
def defaultConfig : Config :=
  { kbsrAddr := defaultKbsrAddr
    kbdrAddr := defaultKbdrAddr
    haltNotice := defaultHaltNotice
    inPrompt := defaultInPrompt
    trapReadsGated := true }

end Sys2Proof.Machine
end

