-- ==== Sys2Proof/Machine/State.lean ====
section
/-! DEFINITION. The state of the machine and of its environment (spec/10_state.md), the reasons a step can stop, and
the state after reset. -/

namespace Sys2Proof.Machine

/-- R14: the three values the condition-code register may hold (an enumeration, as R14 allows; its numbers are in
Machine/Flags.lean). -/
inductive Cond where
  | pos
  | zero
  | neg
  deriving DecidableEq, Repr

/-- R17: the run flag. -/
inductive Run where
  | running
  | halted
  deriving DecidableEq, Repr

/-- R20: the hidden wait phase. -/
inductive Phase where
  | none
  | getcWait
  | inWait
  deriving DecidableEq, Repr

/-- The two string routines (R113, R115). -/
inductive StrRoutine where
  | puts
  | putsp
  deriving DecidableEq, Repr

/-- Who acts next: the CORE, or the keyboard host with the character it delivers (00_scope.md section 5, R145). -/
inductive Turn where
  | core
  | key (c : Byte)
  deriving DecidableEq, Repr

/-- One word of memory at its address. The unit is the 16-bit word: no instruction addresses less (R36). -/
abbrev Cell := Nat × Word

/-- R18: memory, as the words that are not 0x0000, by rising address (assumption 1). -/
abbrev Memory := List Cell

structure State where
  /-- R10: R0 to R7. -/
  regs : Vector Word 8
  /-- R12: the program counter. -/
  pc : Word
  /-- R14: COND. -/
  cond : Cond
  /-- R17: the run flag. -/
  run : Run
  /-- R20: the wait phase of GETC and IN. -/
  phase : Phase
  /-- R18: the 65536 words, the two device registers of R19 among them. -/
  mem : Memory
  /-- R24 (a): the pending characters, oldest first. -/
  kbd : List Byte
  /-- R24 (b): the output log, oldest first. -/
  out : List Byte
  /-- The model's own (assumption 14): a PUTS or PUTSP that never ends (R113) and is still emitting. -/
  walk : Option StrRoutine
  /-- The model's own (assumption 5): the order in which the CORE and the keyboard host act; when it is used up,
  the CORE acts. -/
  schedule : List Turn
  /-- The named parameters of 00_scope.md section 4 (assumption 7); no step changes them. -/
  cfg : Config
  deriving DecidableEq, Repr

/-- Why a step answers no next state. The hardware has no exception (R130): both say that no agent has an enabled
step, which the spec itself says of these states. -/
inductive Fault where
  /-- Raised by `step` when `run` is HALTED: "the CORE has no step" (R77, assumption 3). Safe: nothing is claimed of a
  state after the end of the run. -/
  | halted
  /-- Raised by `step` in the hold of R73 when no keystroke is to come: "it has no step, and only a keystroke arrival
  lifts the hold" (R73, D9, assumption 4). Safe: a hold is never taken for a final state. -/
  | hold
  deriving DecidableEq, Repr

/-- Why the model gives an instruction no meaning. -/
inductive Refusal where
  /-- Raised by an arm of `exec` for an instruction that has no meaning yet; no arm raises it in this model. Safe. -/
  | notModelled (mnemonic : String)
  deriving DecidableEq, Repr

abbrev Result := Host.Outcome State Fault Refusal

/-- R22, R23, R24, R150: R0 to R7 and every memory word 0x0000, `pc` 0x3000, COND ZERO, RUNNING, NONE, an empty output
log. Nothing is pending and no keystroke is scheduled (assumptions 5 and 6); the parameters have their defaults. -/
def State.reset : State :=
  { regs := Vector.replicate 8 0x0000
    pc := 0x3000
    cond := .zero
    run := .running
    phase := .none
    mem := []
    kbd := []
    out := []
    walk := none
    schedule := []
    cfg := defaultConfig }

end Sys2Proof.Machine
end

