-- ==== Sys2Proof/Machine/Ops.lean ====
section
/-! DEFINITION. The shared operations: the pseudocode primitives of spec/00_scope.md section 6.2 over memory, registers,
the I/O gate (spec/20_memory.md) and the console (spec/44_trap.md section 1), and trap entry (R133). -/

namespace Sys2Proof.Machine

/-! ## Storage words (R18) -/

/-- The word at an address; an unlisted address reads as 0x0000, the reset contents (R22). -/
def Memory.read : Memory → Nat → Word
  | [], _ => 0x0000
  | (k, v) :: rest, a => if k = a then v else Memory.read rest a

/-- The memory without an entry for an address. -/
def Memory.erase : Memory → Nat → Memory
  | [], _ => []
  | (k, v) :: rest, a => if k = a then Memory.erase rest a else (k, v) :: Memory.erase rest a

/-- The memory with an entry put before the first higher address. -/
def Memory.insert : Memory → Nat → Word → Memory
  | [], a, w => [(a, w)]
  | (k, v) :: rest, a, w => if a < k then (a, w) :: (k, v) :: rest else (k, v) :: Memory.insert rest a w

/-- The memory after one word is written, in canonical form again: a word 0x0000 is not listed. -/
def Memory.write (m : Memory) (a : Nat) (w : Word) : Memory :=
  if w = 0x0000 then m.erase a else (m.erase a).insert a w

/-- The canonical form of entries at `lo` and above: addresses strictly rising and below 65536, no entry 0x0000. -/
def Memory.wfFrom : Nat → Memory → Bool
  | _, [] => true
  | lo, (k, v) :: rest => decide (lo ≤ k) && decide (k < 65536) && (v != 0x0000) && Memory.wfFrom (k + 1) rest

/-- The canonical form of memory. -/
def Memory.wf (m : Memory) : Bool := Memory.wfFrom 0 m

/-- `M[a]`: the storage word at `a`, with no side effect (R18). -/
def State.word (s : State) (a : Word) : Word := s.mem.read a.toNat

/-- `M[a] <- v`: a direct storage write. -/
def State.setWord (s : State) (a v : Word) : State := { s with mem := s.mem.write a.toNat v }

/-! ## Registers (R10, R12, R14) -/

/-- `R[i]`. -/
def State.reg (s : State) (i : Reg) : Word := s.regs[i]

/-- `R[i] <- v`: all 16 bits are replaced; no register is hardwired. -/
def State.setReg (s : State) (i : Reg) (v : Word) : State := { s with regs := s.regs.set i v }

/-- `pc <- target`. -/
def State.setPc (s : State) (target : Word) : State := { s with pc := target }

/-- `cond <- f`. -/
def State.setCond (s : State) (f : Cond) : State := { s with cond := f }

/-- `run <- HALTED`, the one write of the run flag (R17). -/
def State.stop (s : State) : State := { s with run := .halted }

/-- `phase <- p` (R20). -/
def State.setPhase (s : State) (p : Phase) : State := { s with phase := p }

/-- The register file's field map of the run flag as the environment sees it: 1 = RUNNING, 0 = HALTED (R17). -/
def State.runStatus (s : State) : BitVec 1 :=
  match s.run with
  | .running => 1
  | .halted => 0

/-! ## The keyboard source and the console sink (R118, R119) -/

/-- `KbdReady()`: a character is pending. -/
def State.kbdReady (s : State) : Bool := !s.kbd.isEmpty

/-- `OutByte(b)`: append one byte to the output log. -/
def State.outByte (s : State) (b : Byte) : State := { s with out := s.out ++ [b] }

/-- `OutByte` of each byte of a string, in order. -/
def State.outBytes (s : State) (bs : List Byte) : State := { s with out := s.out ++ bs }

/-- `OutFlush()`: no effect on any modelled state (R119, D14). -/
def State.outFlush (s : State) : State := s

/-- `KeyArrive(c)`: the one action of the keyboard host (R145). -/
def State.keyArrive (s : State) (c : Byte) : State := { s with kbd := s.kbd ++ [c] }

/-! ## Memory access (R32, R33) -/

/-- The poll the gate makes on a read of `KBSR_ADDR` (R32): a ready character is taken from the source, latched into
the data register and reported by the status word 0x8000; otherwise the status word is cleared. -/
def State.poll (s : State) : State :=
  match s.kbd with
  | c :: rest => (({ s with kbd := rest } : State).setWord s.cfg.kbsrAddr 0x8000).setWord s.cfg.kbdrAddr (zext16 c)
  | [] => s.setWord s.cfg.kbsrAddr 0x0000

/-- The state a gated read of `a` leaves (R32). -/
def State.gate (s : State) (a : Word) : State := if a = s.cfg.kbsrAddr then s.poll else s

/-- `MemRead(a)`: one word through the gate, with the state the read leaves (R32). -/
def State.memRead (s : State) (a : Word) : Word × State := ((s.gate a).word a, s.gate a)

/-- `MemWrite(a, v)`: never intercepted (R33). -/
def State.memWrite (s : State) (a v : Word) : State := s.setWord a v

/-- `StrRead(a)`: the read of PUTS and PUTSP, gated or not as `TRAP_READS_GATED` says (R120). -/
def State.strRead (s : State) (a : Word) : Word × State :=
  if s.cfg.trapReadsGated then s.memRead a else (s.word a, s)

/-! ## The link register and trap entry -/

/-- `R[7] <- pc`, the incremented PC: the return address of JSR and JSRR (R102, R103). -/
def State.link (s : State) : State := s.setReg 7 s.pc

/-- Trap entry (R110, R133): exactly `R[7] <- pc`. Nothing else is saved, no mode changes, `pc` is not written and no
vector is read from memory. A trap has no return of its own (R134): the next cycle fetches at `pc`. -/
def State.trapEntry (s : State) : State := s.link

end Sys2Proof.Machine
end

