-- ==== Sys2Proof/Machine/Flags.lean ====
section
/-! DEFINITION. The condition codes: the flag updater (R74) and the test BR makes of them (R14, R100). -/

namespace Sys2Proof.Machine

/-- R74: how a value is classified. -/
def condOf (v : Word) : Cond :=
  if v.getLsbD 15 then .neg else if v = 0x0000 then .zero else .pos

/-- R74: `setcc(i)`. -/
def State.setcc (s : State) (i : Reg) : State := s.setCond (condOf (s.reg i))

/-- The write of a flag-updating instruction: `R[dr] <- v`, then `setcc(dr)`. -/
def State.writeBack (s : State) (dr : Reg) (v : Word) : State := (s.setReg dr v).setcc dr

/-- R14: the numbers of the flags, `FL_POS`, `FL_ZRO`, `FL_NEG`. PRESUMED (D2: the LC-3 convention), assumption 8. -/
def Cond.bits : Cond → Word
  | .pos => 0x0001
  | .zero => 0x0002
  | .neg => 0x0004

/-- R100: the mask ANDed with COND is nonzero. -/
def condMatches (mask : BitVec 3) (c : Cond) : Bool := (zext16 mask &&& c.bits) != 0

end Sys2Proof.Machine
end

