-- ==== Sys2Proof/Machine/Operands.lean ====
section
/-! DEFINITION. The operand forms: sign extension (R1) and the addressing modes (spec/42_load_store.md, R39). -/

namespace Sys2Proof.Machine

/-- R1: `sext_N`, the N-bit field with its top bit copied into every higher bit. -/
def sext {n : Nat} (v : BitVec n) : Word := v.signExtend 16

/-- PC-relative with a 9-bit offset: LD, ST, LDI, STI, LEA, BR. `pc` is the incremented PC. -/
def State.eaPc9 (s : State) (off : BitVec 9) : Word := add16 s.pc (sext off)

/-- PC-relative with an 11-bit offset: JSR. -/
def State.eaPc11 (s : State) (off : BitVec 11) : Word := add16 s.pc (sext off)

/-- Base plus a 6-bit offset: LDR, STR. -/
def State.eaBase (s : State) (baseR : Reg) (off : BitVec 6) : Word := add16 (s.reg baseR) (sext off)

end Sys2Proof.Machine
end

