-- ==== Sys2Proof/Machine/Control.lean ====
section
/-! DEFINITION. BR, JMP, JSR, JSRR (spec/43_control.md). -/

namespace Sys2Proof.Machine

/-- R100. -/
def execBr (cond : BitVec 3) (off : BitVec 9) (s : State) : Result :=
  .next (if condMatches cond s.cond then s.setPc (s.eaPc9 off) else s)

/-- R101. -/
def execJmp (baseR : Reg) (s : State) : Result :=
  .next (s.setPc (s.reg baseR))

/-- R102. -/
def execJsr (off : BitVec 11) (s : State) : Result :=
  .next (s.link.setPc (s.eaPc11 off))

/-- R103: R7 is written first and the base is read after it, so JSRR R7 goes to the return address (D15). -/
def execJsrr (baseR : Reg) (s : State) : Result :=
  let linked := s.link
  .next (linked.setPc (linked.reg baseR))

end Sys2Proof.Machine
end

