-- ==== Sys2Proof/Machine/LoadStore.lean ====
section
/-! DEFINITION. LD, ST, LDR, STR, LDI, STI, LEA (spec/42_load_store.md). A read hands on the state it leaves, since a
read of `KBSR_ADDR` polls the keyboard. -/

namespace Sys2Proof.Machine

/-- `R[dr] <- MemRead(ea)`, then `setcc(dr)`. -/
def State.loadTo (s : State) (dr : Reg) (ea : Word) : State :=
  (s.memRead ea).2.writeBack dr (s.memRead ea).1

/-- R90. -/
def execLd (dr : Reg) (off : BitVec 9) (s : State) : Result :=
  .next (s.loadTo dr (s.eaPc9 off))

/-- R91. -/
def execSt (sr : Reg) (off : BitVec 9) (s : State) : Result :=
  .next (s.memWrite (s.eaPc9 off) (s.reg sr))

/-- R92. -/
def execLdr (dr baseR : Reg) (off : BitVec 6) (s : State) : Result :=
  .next (s.loadTo dr (s.eaBase baseR off))

/-- R93. -/
def execStr (sr baseR : Reg) (off : BitVec 6) (s : State) : Result :=
  .next (s.memWrite (s.eaBase baseR off) (s.reg sr))

/-- R94: the pointer read, then the data read, both through the gate. -/
def execLdi (dr : Reg) (off : BitVec 9) (s : State) : Result :=
  let pointer := s.memRead (s.eaPc9 off)
  .next (pointer.2.loadTo dr pointer.1)

/-- R95: the pointer read through the gate, then the write. -/
def execSti (sr : Reg) (off : BitVec 9) (s : State) : Result :=
  let pointer := s.memRead (s.eaPc9 off)
  .next (pointer.2.memWrite pointer.1 (pointer.2.reg sr))

/-- R96: the address itself; no memory access. -/
def execLea (dr : Reg) (off : BitVec 9) (s : State) : Result :=
  .next (s.writeBack dr (s.eaPc9 off))

end Sys2Proof.Machine
end

