-- ==== Sys2Proof/Machine/Operate.lean ====
section
/-! DEFINITION. ADD, AND, NOT (spec/41_operate.md). -/

namespace Sys2Proof.Machine

/-- R80. -/
def execAddReg (dr sr1 sr2 : Reg) (s : State) : Result :=
  .next (s.writeBack dr (add16 (s.reg sr1) (s.reg sr2)))

/-- R81. -/
def execAddImm (dr sr1 : Reg) (imm5 : BitVec 5) (s : State) : Result :=
  .next (s.writeBack dr (add16 (s.reg sr1) (sext imm5)))

/-- R82. -/
def execAndReg (dr sr1 sr2 : Reg) (s : State) : Result :=
  .next (s.writeBack dr (s.reg sr1 &&& s.reg sr2))

/-- R83. -/
def execAndImm (dr sr1 : Reg) (imm5 : BitVec 5) (s : State) : Result :=
  .next (s.writeBack dr (s.reg sr1 &&& sext imm5))

/-- R84. -/
def execNot (dr sr : Reg) (s : State) : Result :=
  .next (s.writeBack dr (~~~ (s.reg sr)))

end Sys2Proof.Machine
end

