-- ==== Sys2Proof/Machine/Reserved.lean ====
section
/-! DEFINITION. The two opcodes without an operation (spec/45_reserved.md). -/

namespace Sys2Proof.Machine

/-- R125: nothing beyond the fetch. -/
def execRti (s : State) : Result := .next s

/-- R126: nothing beyond the fetch. -/
def execRes (s : State) : Result := .next s

end Sys2Proof.Machine
end

