-- ==== Sys2Proof/Machine/Trap.lean ====
section
/-! DEFINITION. TRAP, its dispatcher and its six routines (spec/44_trap.md). -/

namespace Sys2Proof.Machine

/-! ## GETC and IN: the first halves (R111, R114) and the completions -/

/-- R111, first half. -/
def getcBegin (s : State) : State := s.setPhase .getcWait

/-- R111, second half, for the character taken. -/
def getcComplete (c : Byte) (rest : List Byte) (s : State) : State :=
  (({ s with kbd := rest } : State).writeBack 0 (zext16 c)).setPhase .none

/-- R114, first half: the prompt, then the wait. -/
def inBegin (s : State) : State := ((s.outBytes s.cfg.inPrompt).outFlush).setPhase .inWait

/-- R114, second half, for the character taken: the echo, R0, COND. -/
def inComplete (c : Byte) (rest : List Byte) (s : State) : State :=
  (((({ s with kbd := rest } : State).outByte c).outFlush).writeBack 0 (zext16 c)).setPhase .none

/-! ## OUT (R112) -/

/-- R112: the low byte of R0. -/
def outChar (s : State) : State := (s.outByte ((s.reg 0).extractLsb' 0 8)).outFlush

/-! ## PUTS and PUTSP (R113, R115) -/

/-- What one non-zero word of the string emits: its low byte (R113), or its low byte and then its high byte when that is
non-zero (R115). -/
def strEmit (k : StrRoutine) (w : Word) : List Byte :=
  match k with
  | .puts => [w.extractLsb' 0 8]
  | .putsp => w.extractLsb' 0 8 :: (if w.extractLsb' 8 8 = 0x00#8 then [] else [w.extractLsb' 8 8])

/-- The loop of R113 and R115 from address `a`, for at most the given number of reads; the flag says that the zero
word was read. -/
def strWalk (k : StrRoutine) : Nat → Word → State → State × Bool
  | 0, _, s => (s, false)
  | n + 1, a, s =>
    let r := s.strRead a
    if r.1 = 0x0000 then (r.2, true) else strWalk k n (add16 a 1) (r.2.outBytes (strEmit k r.1))

/-- Enough reads to reach every zero word there is: a lap of the address space for each pending character (a gated lap
takes one at `KBSR_ADDR`), and one more. -/
def walkBound (s : State) : Nat := 65536 * (s.kbd.length + 1)

/-- The routine: the walk from R0 and the flush. A walk that meets no zero word never ends (R113: "emits for ever");
it has made whole laps and is back at R0, and `walk` records that it goes on (assumption 14). -/
def strRoutine (k : StrRoutine) (s : State) : State :=
  let r := strWalk k (walkBound s) (s.reg 0) s
  if r.2 then ({ r.1 with walk := none } : State).outFlush else { r.1 with walk := some k }

/-! ## HALT (R116) -/

/-- R116: the notice, then `run <- HALTED`. -/
def haltRun (s : State) : State := ((s.outBytes s.cfg.haltNotice).outFlush).stop

/-! ## The dispatcher and the meanings -/

/-- R110: the case analysis over the vector; any other vector does nothing (R117). -/
def trapDispatch (vector : BitVec 8) (s : State) : State :=
  if vector = 0x20#8 then getcBegin s
  else if vector = 0x21#8 then outChar s
  else if vector = 0x22#8 then strRoutine .puts s
  else if vector = 0x23#8 then inBegin s
  else if vector = 0x24#8 then strRoutine .putsp s
  else if vector = 0x25#8 then haltRun s
  else s

/-- R110, whole: trap entry, then the dispatch. The decoder gives it only vectors without a routine (R117). -/
def execTrap (vector : BitVec 8) (s : State) : Result := .next (trapDispatch vector s.trapEntry)

/-- R111 after R110. -/
def execGetc (s : State) : Result := .next (getcBegin s.trapEntry)

/-- R112 after R110. -/
def execOut (s : State) : Result := .next (outChar s.trapEntry)

/-- R113 after R110. -/
def execPuts (s : State) : Result := .next (strRoutine .puts s.trapEntry)

/-- R114 after R110. -/
def execIn (s : State) : Result := .next (inBegin s.trapEntry)

/-- R115 after R110. -/
def execPutsp (s : State) : Result := .next (strRoutine .putsp s.trapEntry)

/-- R116 after R110. -/
def execHalt (s : State) : Result := .next (haltRun s.trapEntry)

end Sys2Proof.Machine
end

