-- ==== Sys2Proof/Machine/Cycle.lean ====
section
/-! DEFINITION. The transitions of the CORE (spec/40_cycle_and_flags.md): the cycle, the completion of a blocked GETC or
IN, and the hold. -/

namespace Sys2Proof.Machine

/-- R71 step 1: the word at `pc` through the gate, then `pc` incremented. -/
def fetch (s : State) : Word × State :=
  let r := s.memRead s.pc
  (r.1, r.2.setPc (add16 r.2.pc 1))

/-- R71: one cycle. -/
def cycle (s : State) : Result :=
  let f := fetch s
  exec (decode f.1) f.2

/-- R73: the CORE waits in GETC or IN and no character is pending, so it has no step. -/
def State.holding (s : State) : Bool :=
  match s.walk, s.phase with
  | some _, _ => false
  | none, .none => false
  | none, .getcWait => !s.kbdReady
  | none, .inWait => !s.kbdReady

/-- The step of the CORE: the next laps of a string routine that never ends, a cycle (R71), or the completion of a
blocked routine (R73, R111, R114); none of them in the hold. -/
def coreStep (s : State) : Result :=
  match s.walk with
  | some k => .next (strRoutine k s)
  | none =>
    match s.phase with
    | .none => cycle s
    | .getcWait =>
      match s.kbd with
      | c :: rest => .next (getcComplete c rest s)
      | [] => .fault .hold
    | .inWait =>
      match s.kbd with
      | c :: rest => .next (inComplete c rest s)
      | [] => .fault .hold

/-- The turn is given to the next agent of the schedule. -/
def State.setSchedule (s : State) (rest : List Turn) : State := { s with schedule := rest }

/-- A running machine's step. A key turn is the host's step (R145). A core turn is the CORE's; in the hold the CORE has
no step and the turn passes. When the schedule is used up the CORE acts. -/
def runStep (s : State) : Result :=
  match s.schedule with
  | .key c :: rest => .next ((s.setSchedule rest).keyArrive c)
  | .core :: rest => if s.holding then .next (s.setSchedule rest) else coreStep (s.setSchedule rest)
  | [] => coreStep s

/-- The word `w` stored where the next fetch finds it, with the CORE about to fetch: running, in no wait, its turn. A
fetch at `KBSR_ADDR` would read the keyboard and not the store, so there `pc` moves on by one. -/
def State.placeWord (s : State) (w : Word) : State :=
  let at16 := if s.pc = s.cfg.kbsrAddr then add16 s.pc 1 else s.pc
  let turns := match s.schedule with
    | .key _ :: _ => .core :: s.schedule
    | _ => s.schedule
  ({ s with pc := at16, run := .running, phase := .none, walk := none, schedule := turns } : State).setWord at16 w

end Sys2Proof.Machine
end

