-- ==== Sys2Proof/Machine/Step.lean ====
section
/-! DEFINITION. One step of the machine (spec/00_scope.md, glossary "Step"): one transition of the CORE or one keystroke
arrival. -/

namespace Sys2Proof.Machine

/-- R70, R77: the run flag is tested first; a halted machine has no step. -/
def step (s : State) : Host.Outcome State Fault Refusal :=
  match s.run with
  | .halted => .fault .halted
  | .running => runStep s

/-- `s` with the instruction word whose low `nbits` bits are `w` stored where `step` fetches next (assumption 21): the
very next step runs it. -/
def State.withFetchWord (s : State) (nbits w : Nat) : State := s.placeWord (BitVec.ofNat 16 (w % 2 ^ nbits))

end Sys2Proof.Machine
end

