-- ==== Sys2Proof/Machine/Loader.lean ====
section
/-! DEFINITION. The image load port, used between reset and the start of execution (spec/70_reset_and_hazards.md section
2). -/

namespace Sys2Proof.Machine

/-- The answer of `LoadImage`. After a failure memory is unspecified and the machine is never started (R155), so a
failure carries no state. -/
inductive LoadResult where
  | success (s : State)
  | failure
  deriving DecidableEq, Repr

/-- R152: successive big-endian words, the first byte bits 15:8; a lone last byte is ignored (R153, D18). -/
def imageWords : List Byte → List Word
  | hi :: lo :: rest => (hi ++ lo : Word) :: imageWords rest
  | [_] => []
  | [] => []

/-- The words of an image written from `at` up, by direct storage writes; the load does not wrap (R153). -/
def State.storeWords : List Word → Nat → State → State
  | [], _, s => s
  | w :: ws, a, s => if a < 65536 then State.storeWords ws (a + 1) (s.setWord (BitVec.ofNat 16 a) w) else s

/-- R153: `LoadImage(bytes)`. -/
def loadImage (bytes : List Byte) (s : State) : LoadResult :=
  match bytes with
  | hi :: lo :: rest => .success (State.storeWords (imageWords rest) (hi ++ lo : Word).toNat s)
  | [_] => .failure
  | [] => .failure

/-- R151, R156: images loaded one after another; none when a load fails, since the machine is then not started (R155,
D19). -/
def loadImages : List (List Byte) → State → Option State
  | [], s => some s
  | bytes :: rest, s =>
    match loadImage bytes s with
    | .success t => loadImages rest t
    | .failure => none

/-- R151, R157: reset, then the loads; execution starts in the state they leave. -/
def boot (images : List (List Byte)) : Option State := loadImages images State.reset

end Sys2Proof.Machine
end

