-- ==== Sys2Proof/Safety.lean ====
section
/-! DEFINITION. What a state of a run satisfies and what a run's end is, in the terms the statements use. -/

namespace Sys2Proof.Machine

/-- While GETC or IN is blocked, a string routine never ends, or the run has ended, R7 and `pc` both hold the address
after the TRAP word (R110, R133, R77). -/
abbrev State.atTrap (s : State) : Prop := s.reg 7 = s.pc

/-- The invariant of every run:
memory is canonical (assumption 1) and the two device addresses differ (R19);
a blocked GETC or IN stands at its TRAP (R20, R110);
a string routine that never ends reads past the gate (R113, R120), stands at its TRAP, and nothing else is under way;
a halted machine stands at its HALT with nothing under way, and the log ends with the notice (R77, R159). -/
abbrev State.Inv (s : State) : Prop :=
  s.mem.wf = true ∧
  s.cfg.kbsrAddr ≠ s.cfg.kbdrAddr ∧
  (s.phase ≠ .none → s.atTrap) ∧
  (s.walk ≠ none → s.atTrap ∧ s.phase = .none ∧ s.run = .running ∧ s.cfg.trapReadsGated = false) ∧
  (s.run = .halted → s.atTrap ∧ s.phase = .none ∧ s.cfg.haltNotice <:+ s.out)

/-- R70, R71: the CORE's next step is a cycle: running, in no wait, and the turn is the CORE's. -/
abbrev State.cycleNext (s : State) : Prop :=
  s.run = .running ∧ s.phase = .none ∧ s.walk = none ∧ (s.schedule = [] ∨ s.schedule.head? = some .core)

/-- The state in which the CORE takes its turn. -/
def State.takeTurn (s : State) : State := s.setSchedule s.schedule.tail

/-- R159: the run has ended. -/
abbrev State.isFinal (s : State) : Prop := s.run = .halted

/-! ## The words of the frame statements -/

/-- The flag that matches the sign of a value read as a two's-complement number (R74). -/
def signOf (v : Word) : Cond :=
  if v.toInt < 0 then .neg else if v.toInt = 0 then .zero else .pos

/-- Every register but those listed reads as before. -/
def RegsKept (but : List Reg) (s t : State) : Prop := ∀ r : Reg, r ∉ but → t.reg r = s.reg r

/-- Every word of memory but those listed reads as before. -/
def MemKept (but : List Word) (s t : State) : Prop := ∀ a : Word, a ∉ but → t.word a = s.word a

/-- The keyboard queue and the output log are as before. -/
def ConsoleKept (s t : State) : Prop := t.kbd = s.kbd ∧ t.out = s.out

/-- The run flag, the wait phase, the endless walk, the schedule and the parameters are as before. -/
def ModeKept (s t : State) : Prop :=
  t.run = s.run ∧ t.phase = s.phase ∧ t.walk = s.walk ∧ t.schedule = s.schedule ∧ t.cfg = s.cfg

/-- `t` is `s` with `dr` holding `v` and COND classifying it, and nothing else changed. -/
def WritesResult (dr : Reg) (v : Word) (s t : State) : Prop :=
  t.reg dr = v ∧ t.cond = signOf v ∧ RegsKept [dr] s t ∧ t.pc = s.pc ∧
  MemKept [] s t ∧ ConsoleKept s t ∧ ModeKept s t

/-- `t` is `s` with `dr` holding the word a read returned and COND classifying it, memory and the keyboard queue as the
read left them, and nothing else changed. -/
def LoadsResult (dr : Reg) (read : Word × State) (s t : State) : Prop :=
  t.reg dr = read.1 ∧ t.cond = signOf read.1 ∧ RegsKept [dr] s t ∧ t.pc = s.pc ∧
  MemKept [] read.2 t ∧ t.kbd = read.2.kbd ∧ t.out = s.out ∧ ModeKept s t

/-- `t` is `s` with `v` stored at `a`, and nothing else changed. -/
def StoresWord (a v : Word) (s t : State) : Prop :=
  t.word a = v ∧ MemKept [a] s t ∧ RegsKept [] s t ∧ t.cond = s.cond ∧ t.pc = s.pc ∧ ConsoleKept s t ∧ ModeKept s t

/-- `t` is `s` with `pc` at `target`, and nothing else changed. -/
def JumpsTo (target : Word) (s t : State) : Prop :=
  t.pc = target ∧ RegsKept [] s t ∧ t.cond = s.cond ∧ MemKept [] s t ∧ ConsoleKept s t ∧ ModeKept s t

/-- `t` is `s` with R7 holding `s.pc` and `pc` at `target`, and nothing else changed. -/
def CallsTo (target : Word) (s t : State) : Prop :=
  t.reg 7 = s.pc ∧ t.pc = target ∧ RegsKept [7] s t ∧ t.cond = s.cond ∧ MemKept [] s t ∧ ConsoleKept s t ∧
  ModeKept s t

/-! ## The words of the string statements (R113, R115, R120) -/

/-- What PUTS emits for one word: its low byte (R113). -/
def putsBytes (w : Word) : List Byte := [w.setWidth 8]

/-- What PUTSP emits for one word: its low byte, then its high byte if that is not zero (R115). -/
def putspBytes (w : Word) : List Byte :=
  if (w >>> 8).setWidth 8 = 0x00#8 then [w.setWidth 8] else [w.setWidth 8, (w >>> 8).setWidth 8]

/-- R120: a string read, by `MemRead` or from storage. -/
def State.stringRead (s : State) (a : Word) : Word × State :=
  if s.cfg.trapReadsGated then s.memRead a else (s.word a, s)

/-- The state that the string reads of `a`, `a + 1`, ... leave, the given number of them, in order and wrapping. -/
def State.afterReads (s : State) (a : Word) : Nat → State
  | 0 => s
  | j + 1 => ((s.afterReads a j).stringRead (a + BitVec.ofNat 16 j)).2

/-- The word that the string read of `a + j` returns, after those of `a` to `a + j - 1`. -/
def State.readWord (s : State) (a : Word) (j : Nat) : Word :=
  ((s.afterReads a j).stringRead (a + BitVec.ofNat 16 j)).1

/-- The bytes of the first `n` words the string reads from R0 on return. -/
def State.readBytes (emit : Word → List Byte) (s : State) (n : Nat) : List Byte :=
  (List.range n).flatMap fun j => emit (s.readWord (s.reg 0) j)

/-- The bytes of the `n` words that memory holds from R0 on, wrapping. -/
def State.storedBytes (emit : Word → List Byte) (s : State) (n : Nat) : List Byte :=
  (List.range n).flatMap fun j => emit (s.word (s.reg 0 + BitVec.ofNat 16 j))

/-- What a string routine emits.
(1) In every state: it ends at the first read that returns zero, has emitted the bytes of the words read before it, and
leaves memory and the pending queue as those reads do.
(2) A string in plain memory: the words are those memory holds, and the routine changes neither memory nor the queue.
(3) A gated string that reaches `KBSR_ADDR`: with nothing pending it ends there; with a key pending the read takes the key,
the bytes of 0x8000 are emitted, and the string goes on. -/
def EmitsString (i : Instr) (emit : Word → List Byte) : Prop :=
  ∀ (s : State) (n : Nat),
    ((∀ j < n, s.readWord (s.reg 0) j ≠ 0x0000) → s.readWord (s.reg 0) n = 0x0000 →
      ∃ t, exec i s = .next t ∧ t.walk = none ∧ t.out = s.out ++ s.readBytes emit n ∧
        MemKept [] (s.afterReads (s.reg 0) (n + 1)) t ∧ t.kbd = (s.afterReads (s.reg 0) (n + 1)).kbd) ∧
    (n < 65536 → (∀ j < n, s.word (s.reg 0 + BitVec.ofNat 16 j) ≠ 0x0000) →
      s.word (s.reg 0 + BitVec.ofNat 16 n) = 0x0000 →
      (s.cfg.trapReadsGated = true → ∀ j ≤ n, s.reg 0 + BitVec.ofNat 16 j ≠ s.cfg.kbsrAddr) →
      ∃ t, exec i s = .next t ∧ t.walk = none ∧ t.out = s.out ++ s.storedBytes emit n ∧ MemKept [] s t ∧
        t.kbd = s.kbd) ∧
    (n < 65536 → (∀ j < n, s.word (s.reg 0 + BitVec.ofNat 16 j) ≠ 0x0000) → s.cfg.trapReadsGated = true →
      s.reg 0 + BitVec.ofNat 16 n = s.cfg.kbsrAddr →
      (s.kbd = [] → ∃ t, exec i s = .next t ∧ t.walk = none ∧ t.out = s.out ++ s.storedBytes emit n ∧
        t.word s.cfg.kbsrAddr = 0x0000 ∧ MemKept [s.cfg.kbsrAddr] s t ∧ t.kbd = []) ∧
      (∀ c rest, s.kbd = c :: rest → s.cfg.kbsrAddr ≠ s.cfg.kbdrAddr → ∃ t more, exec i s = .next t ∧ t.walk = none ∧
        t.out = s.out ++ s.storedBytes emit n ++ emit 0x8000 ++ more ∧ t.kbd <:+ rest))

/-- A string routine past the gate with no zero word in memory: after any number of steps it is still the one at work, it
has emitted the bytes of more words than that, in memory's order and lap after lap, and nothing else has changed but R7. -/
def EmitsForEver (i : Instr) (k : StrRoutine) (emit : Word → List Byte) : Prop :=
  ∀ s : State, s.run = .running → s.schedule = [] → s.cfg.trapReadsGated = false → (∀ a : Word, s.word a ≠ 0x0000) →
    ∃ t, exec i s = .next t ∧ ∀ n : Nat, ∃ u m, Sys2Proof.core.run n t = .next u ∧ u.walk = some k ∧ n < m ∧
      u.out = s.out ++ s.storedBytes emit m ∧ u.reg 7 = s.pc ∧ RegsKept [7] s u ∧ u.pc = s.pc ∧ u.cond = s.cond ∧
      MemKept [] s u ∧ u.kbd = s.kbd ∧ u.run = .running ∧ u.phase = s.phase ∧ u.schedule = [] ∧ u.cfg = s.cfg

/-! ## The words of the loader statements (R152, R153) -/

/-- The byte `bytes[i]` of an image. -/
def imageByte (bytes : List Byte) (i : Nat) : Byte := bytes.getD i 0

/-- The origin: `bytes[0] ++ bytes[1]`. -/
def imageOrigin (bytes : List Byte) : Nat := 256 * (imageByte bytes 0).toNat + (imageByte bytes 1).toNat

/-- How many words are loaded: `min( floor((L - 2) / 2), 65536 - origin )`. -/
def imageCount (bytes : List Byte) : Nat := min ((bytes.length - 2) / 2) (65536 - imageOrigin bytes)

/-- The word `bytes[2 + 2i] ++ bytes[3 + 2i]`, big-endian. -/
def imageWord (bytes : List Byte) (i : Nat) : Word :=
  BitVec.ofNat 16 (256 * (imageByte bytes (2 + 2 * i)).toNat + (imageByte bytes (3 + 2 * i)).toNat)

/-- The addresses an image is loaded at. -/
def inImage (bytes : List Byte) (a : Word) : Prop :=
  imageOrigin bytes ≤ a.toNat ∧ a.toNat < imageOrigin bytes + imageCount bytes

end Sys2Proof.Machine
end

