-- ==== Sys2Proof/Certificates/Slice0/Obligations.lean ====
section
/-! DEFINITION. The statements for the provers, from the numbered rules of spec/. In every statement about an
instruction `s` is the state after the fetch, so `s.pc` is the incremented PC (R13). The words of the frames
(`RegsKept`, `MemKept`, `ConsoleKept`, `ModeKept`, `WritesResult`, `LoadsResult`, `StoresWord`, `JumpsTo`, `CallsTo`,
`signOf`) are in Sys2Proof/Safety.lean. The decode clauses give each instruction the opcode number its rule states; the
spec numbers the opcodes in rule R51, by its decision D1 (assumption 9). -/

open Sys2Proof Sys2Proof.Machine

/-! ## Primitives, registers, memory, the gate -/

/-- R1, whole: `sext_N` for N in 5, 6, 9, 11 adds 2^16 - 2^N when the top bit of the field is set, keeps the number the
field has as a two's-complement number, and so has the range the rule gives. -/
def Obligations.SignExtensionKeepsTheSignedValue : Prop :=
  ∀ n ∈ [5, 6, 9, 11], ∀ v : BitVec n,
    (sext v).toNat = (if v.getLsbD (n - 1) then v.toNat + (2 ^ 16 - 2 ^ n) else v.toNat) ∧
    (sext v).toInt = v.toInt ∧ -(2 ^ (n - 1) : Int) ≤ (sext v).toInt ∧ (sext v).toInt ≤ 2 ^ (n - 1) - 1

/-- R10: eight registers of 16 bits, none hardwired and none aliased: each holds what was last written to it, and
0x0000 after reset. -/
def Obligations.EveryRegisterHoldsWhatWasWritten : Prop :=
  (∀ (s : State) (i j : Reg) (v : Word), (s.setReg i v).reg j = if j = i then v else s.reg j) ∧
  ∀ i : Reg, State.reset.reg i = 0x0000

/-- R74, whole: `setcc(i)` classifies the value in register i by bit 15 and by zero, and writes nothing but COND. -/
def Obligations.FlagUpdaterClassifiesTheValue : Prop :=
  ∀ (s : State) (i : Reg),
    ((s.setcc i).cond = .neg ↔ (s.reg i).getLsbD 15 = true) ∧
    ((s.setcc i).cond = .zero ↔ s.reg i = 0x0000) ∧
    ((s.setcc i).cond = .pos ↔ 0x0001 ≤ s.reg i ∧ s.reg i ≤ 0x7FFF) ∧
    (s.setcc i).cond = signOf (s.reg i) ∧
    s.setcc i = { s with cond := (s.setcc i).cond }

/-- R33 (with R30): a write stores one word at any address, the device addresses among them, leaves every other word
alone, and touches nothing else; no write polls the keyboard. -/
def Obligations.WriteStoresOneWordAndIsNeverIntercepted : Prop :=
  ∀ (s : State) (a v : Word), StoresWord a v s (s.memWrite a v)

/-- Assumption 1 (the model's own): memory has one canonical form, so that two canonical memories that read alike are
equal, and every write keeps the form. -/
def Obligations.CanonicalMemoriesThatReadAlikeAreEqual : Prop :=
  (∀ m m' : Memory, m.wf = true → m'.wf = true → (∀ a : Word, m.read a.toNat = m'.read a.toNat) → m = m') ∧
  ∀ (m : Memory) (a v : Word), m.wf = true → (m.write a.toNat v).wf = true

/-- R32 (its readings D6, D7, D8 are the spec's decisions, assumption 11): what a gated read returns and what it changes,
for each of its three cases. -/
def Obligations.GatedReadPollsTheKeyboard : Prop :=
  ∀ (s : State) (a : Word), s.cfg.kbsrAddr ≠ s.cfg.kbdrAddr →
    let r := s.memRead a
    RegsKept [] s r.2 ∧ r.2.pc = s.pc ∧ r.2.cond = s.cond ∧ r.2.out = s.out ∧ ModeKept s r.2 ∧
    (a ≠ s.cfg.kbsrAddr → r.1 = s.word a ∧ r.2 = s) ∧
    (a = s.cfg.kbsrAddr → s.kbd = [] →
      r.1 = 0x0000 ∧ r.2.word s.cfg.kbsrAddr = 0x0000 ∧ MemKept [s.cfg.kbsrAddr] s r.2 ∧ r.2.kbd = []) ∧
    (a = s.cfg.kbsrAddr → ∀ c rest, s.kbd = c :: rest →
      r.1 = 0x8000 ∧ r.2.word s.cfg.kbsrAddr = 0x8000 ∧ r.2.word s.cfg.kbdrAddr = zext16 c ∧
      MemKept [s.cfg.kbsrAddr, s.cfg.kbdrAddr] s r.2 ∧ r.2.kbd = rest)

/-- R35 (D6, D7, D8, assumption 11): with one keystroke pending the first read of the status register returns 0x8000, and
every later one, however many, returns 0x0000; the data register keeps the character through all of them, and reading it
returns the character and changes nothing. With two pending, two reads return 0x8000 and the second character overwrites the
first. -/
def Obligations.KeystrokeIsReportedByExactlyOneRead : Prop :=
  ∀ (s : State) (c : Byte), s.cfg.kbsrAddr ≠ s.cfg.kbdrAddr →
    let r1 := s.memRead s.cfg.kbsrAddr
    (s.kbd = [c] → r1.1 = 0x8000 ∧ ∀ n : Nat,
      let u := (fun v : State => (v.memRead s.cfg.kbsrAddr).2)^[n] r1.2
      (u.memRead s.cfg.kbsrAddr).1 = 0x0000 ∧ u.memRead s.cfg.kbdrAddr = (zext16 c, u) ∧ u.kbd = []) ∧
    (∀ d, s.kbd = [c, d] → let r2 := r1.2.memRead s.cfg.kbsrAddr
      r1.1 = 0x8000 ∧ r1.2.word s.cfg.kbdrAddr = zext16 c ∧ r2.1 = 0x8000 ∧ r2.2.word s.cfg.kbdrAddr = zext16 d ∧
      r2.2.kbd = [])

/-! ## Operate instructions -/

/-- R80, whole: the words 0001 ddd sss 0 xx ttt, whatever the ignored bits; R[dr] gets R[sr1] + R[sr2] modulo 65536, COND
its sign, and nothing else changes. Both sources are read before dr is written. -/
def Obligations.AddRegisterForm : Prop :=
  (∀ (dr sr1 sr2 : BitVec 3) (ign : BitVec 2), decode (0b0001#4 ++ dr ++ sr1 ++ 0b0#1 ++ ign ++ sr2) =
    .addReg (.ofBits dr) (.ofBits sr1) (.ofBits sr2)) ∧
  ∀ (dr sr1 sr2 : Reg) (s : State), ∃ t, exec (.addReg dr sr1 sr2) s = .next t ∧
    WritesResult dr (s.reg sr1 + s.reg sr2) s t

/-- R81, whole: the words 0001 ddd sss 1 iiiii; R[dr] gets R[sr1] plus the sign-extended immediate, COND its sign, and
nothing else changes. -/
def Obligations.AddImmediateForm : Prop :=
  (∀ (dr sr1 : BitVec 3) (imm5 : BitVec 5), decode (0b0001#4 ++ dr ++ sr1 ++ 0b1#1 ++ imm5) =
    .addImm (.ofBits dr) (.ofBits sr1) imm5) ∧
  ∀ (dr sr1 : Reg) (imm5 : BitVec 5) (s : State), ∃ t, exec (.addImm dr sr1 imm5) s = .next t ∧
    WritesResult dr (s.reg sr1 + imm5.signExtend 16) s t

/-- R82, whole: the words 0101 ddd sss 0 xx ttt, whatever the ignored bits; R[dr] gets R[sr1] AND R[sr2], COND its sign,
and nothing else changes. -/
def Obligations.AndRegisterForm : Prop :=
  (∀ (dr sr1 sr2 : BitVec 3) (ign : BitVec 2), decode (0b0101#4 ++ dr ++ sr1 ++ 0b0#1 ++ ign ++ sr2) =
    .andReg (.ofBits dr) (.ofBits sr1) (.ofBits sr2)) ∧
  ∀ (dr sr1 sr2 : Reg) (s : State), ∃ t, exec (.andReg dr sr1 sr2) s = .next t ∧
    WritesResult dr (s.reg sr1 &&& s.reg sr2) s t

/-- R83, whole: the words 0101 ddd sss 1 iiiii; R[dr] gets R[sr1] AND the sign-extended immediate, COND its sign, and
nothing else changes. -/
def Obligations.AndImmediateForm : Prop :=
  (∀ (dr sr1 : BitVec 3) (imm5 : BitVec 5), decode (0b0101#4 ++ dr ++ sr1 ++ 0b1#1 ++ imm5) =
    .andImm (.ofBits dr) (.ofBits sr1) imm5) ∧
  ∀ (dr sr1 : Reg) (imm5 : BitVec 5) (s : State), ∃ t, exec (.andImm dr sr1 imm5) s = .next t ∧
    WritesResult dr (s.reg sr1 &&& imm5.signExtend 16) s t

/-- R84, whole: the words 1001 ddd sss xxxxxx, whatever the ignored bits; R[dr] gets 0xFFFF - R[sr], COND its sign, and
nothing else changes. -/
def Obligations.NotComplementsTheRegister : Prop :=
  (∀ (dr sr : BitVec 3) (ign : BitVec 6), decode (0b1001#4 ++ dr ++ sr ++ ign) =
    .notReg (.ofBits dr) (.ofBits sr)) ∧
  ∀ (dr sr : Reg) (s : State), ∃ t, exec (.notReg dr sr) s = .next t ∧
    WritesResult dr (0xFFFF - s.reg sr) s t

/-! ## Loads, stores, LEA -/

/-- R90, whole: the words 0010 ddd ppppppppp; R[dr] gets the word read through the gate at pc plus the sign-extended
offset, COND its sign, and nothing else changes but what the read changes; away from `KBSR_ADDR` that is nothing. -/
def Obligations.LoadPcRelative : Prop :=
  (∀ (dr : BitVec 3) (off : BitVec 9), decode (0b0010#4 ++ dr ++ off) = .ld (.ofBits dr) off) ∧
  ∀ (dr : Reg) (off : BitVec 9) (s : State), ∃ t, exec (.ld dr off) s = .next t ∧
    LoadsResult dr (s.memRead (s.pc + off.signExtend 16)) s t ∧
    (s.pc + off.signExtend 16 ≠ s.cfg.kbsrAddr → WritesResult dr (s.word (s.pc + off.signExtend 16)) s t)

/-- R92, whole: the words 0110 ddd bbb ffffff; R[dr] gets the word read through the gate at R[base_r] plus the sign-extended
offset, COND its sign, and nothing else changes but what the read changes; the base is kept unless it is `dr`. -/
def Obligations.LoadBaseAndOffset : Prop :=
  (∀ (dr baseR : BitVec 3) (off : BitVec 6), decode (0b0110#4 ++ dr ++ baseR ++ off) =
    .ldr (.ofBits dr) (.ofBits baseR) off) ∧
  ∀ (dr baseR : Reg) (off : BitVec 6) (s : State), ∃ t, exec (.ldr dr baseR off) s = .next t ∧
    LoadsResult dr (s.memRead (s.reg baseR + off.signExtend 16)) s t ∧
    (s.reg baseR + off.signExtend 16 ≠ s.cfg.kbsrAddr →
      WritesResult dr (s.word (s.reg baseR + off.signExtend 16)) s t)

/-- R94, whole: the words 1010 ddd ppppppppp; the pointer is read through the gate at pc plus the sign-extended offset, then
R[dr] gets the word read through the gate at the pointer, COND its sign, and nothing else changes but what the reads
change. -/
def Obligations.LoadIndirect : Prop :=
  (∀ (dr : BitVec 3) (off : BitVec 9), decode (0b1010#4 ++ dr ++ off) = .ldi (.ofBits dr) off) ∧
  ∀ (dr : Reg) (off : BitVec 9) (s : State), ∃ t, exec (.ldi dr off) s = .next t ∧
    (let pointer := s.memRead (s.pc + off.signExtend 16)
     LoadsResult dr (pointer.2.memRead pointer.1) s t) ∧
    (s.pc + off.signExtend 16 ≠ s.cfg.kbsrAddr → s.word (s.pc + off.signExtend 16) ≠ s.cfg.kbsrAddr →
      WritesResult dr (s.word (s.word (s.pc + off.signExtend 16))) s t)

/-- R91, whole: the words 0011 sss ppppppppp; R[sr] is stored at pc plus the sign-extended offset; no register, no flag and no
other word changes. -/
def Obligations.StorePcRelative : Prop :=
  (∀ (sr : BitVec 3) (off : BitVec 9), decode (0b0011#4 ++ sr ++ off) = .st (.ofBits sr) off) ∧
  ∀ (sr : Reg) (off : BitVec 9) (s : State), ∃ t, exec (.st sr off) s = .next t ∧
    StoresWord (s.pc + off.signExtend 16) (s.reg sr) s t

/-- R93, whole: the words 0111 sss bbb ffffff; R[sr] is stored at R[base_r] plus the sign-extended offset; no register, no
flag and no other word changes. -/
def Obligations.StoreBaseAndOffset : Prop :=
  (∀ (sr baseR : BitVec 3) (off : BitVec 6), decode (0b0111#4 ++ sr ++ baseR ++ off) =
    .str (.ofBits sr) (.ofBits baseR) off) ∧
  ∀ (sr baseR : Reg) (off : BitVec 6) (s : State), ∃ t, exec (.str sr baseR off) s = .next t ∧
    StoresWord (s.reg baseR + off.signExtend 16) (s.reg sr) s t

/-- R95, whole: the words 1011 sss ppppppppp; the pointer is read through the gate at pc plus the sign-extended offset, then
R[sr] is stored there in the state that read leaves; no register, no flag and no other word changes. -/
def Obligations.StoreIndirect : Prop :=
  (∀ (sr : BitVec 3) (off : BitVec 9), decode (0b1011#4 ++ sr ++ off) = .sti (.ofBits sr) off) ∧
  ∀ (sr : Reg) (off : BitVec 9) (s : State), ∃ t, exec (.sti sr off) s = .next t ∧
    (let pointer := s.memRead (s.pc + off.signExtend 16)
     StoresWord pointer.1 (s.reg sr) pointer.2 t ∧ RegsKept [] s t ∧ t.cond = s.cond ∧ t.pc = s.pc ∧
     t.out = s.out ∧ ModeKept s t) ∧
    (s.pc + off.signExtend 16 ≠ s.cfg.kbsrAddr → StoresWord (s.word (s.pc + off.signExtend 16)) (s.reg sr) s t)

/-- R96, whole: the words 1110 ddd ppppppppp; R[dr] gets pc plus the sign-extended offset, the address and not the word
there, COND its sign, and nothing else changes. -/
def Obligations.LoadEffectiveAddress : Prop :=
  (∀ (dr : BitVec 3) (off : BitVec 9), decode (0b1110#4 ++ dr ++ off) = .lea (.ofBits dr) off) ∧
  ∀ (dr : Reg) (off : BitVec 9) (s : State), ∃ t, exec (.lea dr off) s = .next t ∧
    WritesResult dr (s.pc + off.signExtend 16) s t

/-! ## Control transfer -/

/-- R100: the words 0000 ccc ppppppppp; when the mask names the flag COND holds, pc gets the incremented PC plus the
sign-extended offset and nothing else changes; otherwise nothing changes. The pairing of the mask's bits with the flags is
the spec's decision D2 (assumption 8). -/
def Obligations.BranchIsTakenWhenTheMaskMatches : Prop :=
  (∀ (cond : BitVec 3) (off : BitVec 9), decode (0b0000#4 ++ cond ++ off) = .br cond off) ∧
  ∀ (mask : BitVec 3) (off : BitVec 9) (s : State), ∃ t, exec (.br mask off) s = .next t ∧
    (((mask.getLsbD 2 = true ∧ s.cond = .neg) ∨ (mask.getLsbD 1 = true ∧ s.cond = .zero) ∨
      (mask.getLsbD 0 = true ∧ s.cond = .pos)) → JumpsTo (s.pc + off.signExtend 16) s t) ∧
    (¬ ((mask.getLsbD 2 = true ∧ s.cond = .neg) ∨ (mask.getLsbD 1 = true ∧ s.cond = .zero) ∨
      (mask.getLsbD 0 = true ∧ s.cond = .pos)) → t = s)

/-- R101, whole: the words 1100 xxx bbb xxxxxx, whatever the ignored bits; pc gets R[base_r], and nothing else changes. -/
def Obligations.JumpGoesToTheRegister : Prop :=
  (∀ (ignHi baseR : BitVec 3) (ignLo : BitVec 6), decode (0b1100#4 ++ ignHi ++ baseR ++ ignLo) =
    .jmp (.ofBits baseR)) ∧
  ∀ (baseR : Reg) (s : State), ∃ t, exec (.jmp baseR) s = .next t ∧ JumpsTo (s.reg baseR) s t

/-- R102, whole: the words 0100 1 ppppppppppp; R7 gets the incremented PC, pc that plus the sign-extended offset, and nothing
else changes, COND included. -/
def Obligations.CallPcRelative : Prop :=
  (∀ off : BitVec 11, decode (0b0100#4 ++ 0b1#1 ++ off) = .jsr off) ∧
  ∀ (off : BitVec 11) (s : State), ∃ t, exec (.jsr off) s = .next t ∧ CallsTo (s.pc + off.signExtend 16) s t

/-- R103: the words 0100 0 xx bbb xxxxxx, whatever the ignored bits; R7 gets the incremented PC, pc gets R[base_r], and
nothing else changes, COND included. That R7 is written before the base is read, so that JSRR R7 falls through, is the
spec's decision D15 (assumption 17). -/
def Obligations.CallThroughRegister : Prop :=
  (∀ (ignHi : BitVec 2) (baseR : BitVec 3) (ignLo : BitVec 6),
    decode (0b0100#4 ++ 0b0#1 ++ ignHi ++ baseR ++ ignLo) = .jsrr (.ofBits baseR)) ∧
  ∀ (baseR : Reg) (s : State), ∃ t, exec (.jsrr baseR) s = .next t ∧
    CallsTo (if baseR = 7 then s.pc else s.reg baseR) s t

/-! ## TRAP and its routines -/

/-- R110: every TRAP, whatever its vector, saves the incremented PC in R7 and leaves pc; the vector selects the routine,
whatever bits 11:8 are (D4, assumption 10); any other vector does nothing more (R117, whose write of R7 is the spec's
decision D16, assumption 17). The six vectors have constructors of their own (assumption 22): the term `trap` with such a
vector does what the constructor does. -/
def Obligations.TrapLinksAndDispatchesOnTheVector : Prop :=
  (∀ (ign : BitVec 4) (vector : BitVec 8), decode (0b1111#4 ++ ign ++ vector) =
    if vector = 0x20 then .getc else if vector = 0x21 then .out else if vector = 0x22 then .puts
    else if vector = 0x23 then .inp else if vector = 0x24 then .putsp else if vector = 0x25 then .halt
    else .trap vector) ∧
  (∀ (vector : BitVec 8) (s : State), ∃ t, exec (.trap vector) s = .next t ∧ t.reg 7 = s.pc ∧ t.pc = s.pc) ∧
  (∀ s : State, exec (.trap 0x20) s = exec .getc s ∧ exec (.trap 0x21) s = exec .out s ∧
    exec (.trap 0x22) s = exec .puts s ∧ exec (.trap 0x23) s = exec .inp s ∧
    exec (.trap 0x24) s = exec .putsp s ∧ exec (.trap 0x25) s = exec .halt s) ∧
  ∀ (vector : BitVec 8) (s : State), vector < 0x20 ∨ 0x25 < vector →
    ∃ t, exec (.trap vector) s = .next t ∧ CallsTo s.pc s t

/-- R111 (the two halves are the spec's D21, the character's width D8, the ignored bits D4, assumptions 16, 11 and 10; the
schedule that gives the CORE its turn is the model's, assumption 5): the first half, inside the cycle of the TRAP, writes R7 and `phase`; the
second half, once a character is pending and it is the CORE's turn, delivers it in R0 with bits 15:8 zero, sets COND from
it and ends the wait. -/
def Obligations.GetcReadsOneCharacterIntoR0 : Prop :=
  (∀ ign : BitVec 4, decode (0b1111#4 ++ ign ++ 0x20#8) = .getc) ∧
  (∀ s : State, ∃ t, exec .getc s = .next t ∧ t.phase = .getcWait ∧ t.reg 7 = s.pc ∧ RegsKept [7] s t ∧
    t.pc = s.pc ∧ t.cond = s.cond ∧ MemKept [] s t ∧ ConsoleKept s t ∧ t.run = s.run ∧ t.walk = s.walk ∧
    t.schedule = s.schedule ∧ t.cfg = s.cfg) ∧
  ∀ (s : State) (c : Byte) (rest : List Byte), s.run = .running → s.walk = none → s.phase = .getcWait →
    s.kbd = c :: rest → (s.schedule = [] ∨ s.schedule.head? = some .core) →
    ∃ t, step s = .next t ∧ t.reg 0 = zext16 c ∧ t.cond = (if c = 0x00 then .zero else .pos) ∧ t.phase = .none ∧
      t.kbd = rest ∧ t.out = s.out ∧ RegsKept [0] s t ∧ t.pc = s.pc ∧ MemKept [] s t ∧ t.run = .running ∧
      t.walk = none ∧ t.schedule = s.schedule.tail ∧ t.cfg = s.cfg

/-- R112: OUT, the words 1111 xxxx 00100001, whatever the ignored bits 11:8 (R110, R55; D4, assumption 10), appends the low
byte of R0 to the log; beyond that R7 gets the incremented PC (R110) and nothing changes. -/
def Obligations.OutAppendsTheLowByteOfR0 : Prop :=
  (∀ ign : BitVec 4, decode (0b1111#4 ++ ign ++ 0x21#8) = .out) ∧
  ∀ s : State, ∃ t, exec .out s = .next t ∧ t.out = s.out ++ [(s.reg 0).setWidth 8] ∧ t.kbd = s.kbd ∧
    t.reg 7 = s.pc ∧ RegsKept [7] s t ∧ t.pc = s.pc ∧ t.cond = s.cond ∧ MemKept [] s t ∧ ModeKept s t

/-- R114 (the order is D26, assumption 19; the text the parameter of D13, assumption 7; the two halves D21, assumption 16; the
zero-extended character D8, assumption 11; the schedule that gives the CORE its turn is the model's, assumption 5; the
ignored bits D4, assumption 10): the first half emits the prompt, writes R7 and waits; the second half, once a character is
pending and it is the CORE's turn, echoes the character, delivers it in R0, sets COND from it and ends the wait. -/
def Obligations.InPromptsThenEchoesOneCharacter : Prop :=
  (∀ ign : BitVec 4, decode (0b1111#4 ++ ign ++ 0x23#8) = .inp) ∧
  (∀ s : State, ∃ t, exec .inp s = .next t ∧ t.phase = .inWait ∧ t.out = s.out ++ s.cfg.inPrompt ∧ t.kbd = s.kbd ∧
    t.reg 7 = s.pc ∧ RegsKept [7] s t ∧ t.pc = s.pc ∧ t.cond = s.cond ∧ MemKept [] s t ∧ t.run = s.run ∧
    t.walk = s.walk ∧ t.schedule = s.schedule ∧ t.cfg = s.cfg) ∧
  ∀ (s : State) (c : Byte) (rest : List Byte), s.run = .running → s.walk = none → s.phase = .inWait →
    s.kbd = c :: rest → (s.schedule = [] ∨ s.schedule.head? = some .core) →
    ∃ t, step s = .next t ∧ t.reg 0 = zext16 c ∧ t.cond = (if c = 0x00 then .zero else .pos) ∧ t.phase = .none ∧
      t.kbd = rest ∧ t.out = s.out ++ [c] ∧ RegsKept [0] s t ∧ t.pc = s.pc ∧ MemKept [] s t ∧ t.run = .running ∧
      t.walk = none ∧ t.schedule = s.schedule.tail ∧ t.cfg = s.cfg

/-- R116, up to the text of the notice (a parameter, D12, assumption 7), whatever the ignored bits (D4, assumption 10): HALT appends the notice to the log and sets the run
flag to HALTED; beyond that R7 gets the incremented PC (R110) and nothing changes. -/
def Obligations.HaltEmitsTheNoticeAndStops : Prop :=
  (∀ ign : BitVec 4, decode (0b1111#4 ++ ign ++ 0x25#8) = .halt) ∧
  ∀ s : State, ∃ t, exec .halt s = .next t ∧ t.run = .halted ∧ t.out = s.out ++ s.cfg.haltNotice ∧ t.kbd = s.kbd ∧
    t.reg 7 = s.pc ∧ RegsKept [7] s t ∧ t.pc = s.pc ∧ t.cond = s.cond ∧ MemKept [] s t ∧ t.phase = s.phase ∧
    t.walk = s.walk ∧ t.schedule = s.schedule ∧ t.cfg = s.cfg

/-- R113, R115: PUTS and PUTSP have a next state in every state; a routine that never ends has one by the model's field
`walk`, which says that it goes on, and which is set only past the gate (assumption 14). They write R7 and the output log;
beyond that a gated read of `KBSR_ADDR` may write the two device words and take pending characters, and a walk past the gate
does not even that. -/
def Obligations.StringRoutinesWriteOnlyR7AndTheLog : Prop :=
  ∀ i ∈ [Instr.puts, Instr.putsp], ∀ s : State, ∃ t, exec i s = .next t ∧ t.reg 7 = s.pc ∧ RegsKept [7] s t ∧
    t.pc = s.pc ∧ t.cond = s.cond ∧ t.run = s.run ∧ t.phase = s.phase ∧ t.schedule = s.schedule ∧ t.cfg = s.cfg ∧
    s.out <+: t.out ∧ t.kbd <:+ s.kbd ∧ MemKept [s.cfg.kbsrAddr, s.cfg.kbdrAddr] s t ∧
    (t.walk ≠ none → s.cfg.trapReadsGated = false) ∧
    (s.cfg.trapReadsGated = false → MemKept [] s t ∧ t.kbd = s.kbd)

/-- R113 with R120 (low bytes D10, wrap D11, the gate D5(b) and D6 to D8, assumptions 11 and 13; that no key arrives inside
the walk D24, R72, assumption 15): PUTS emits the low byte of
each word it reads from R0 on, wrapping, before the first zero word, in every state; in plain memory these are the words
memory holds; a gated read of `KBSR_ADDR` ends the string when nothing is pending and otherwise takes the key and emits
0x00 (`EmitsString`, Sys2Proof/Safety.lean). -/
def Obligations.PutsEmitsTheLowByteOfEachWord : Prop :=
  EmitsString .puts putsBytes ∧ putsBytes 0x8000 = [0x00]

/-- R115 with R120 (the untested low byte is D25, wrap D11, the gate D5(b) and D6 to D8, assumptions 11 and 13;
that no key arrives inside the walk D24, R72, assumption 15): PUTSP emits
the low byte of each word it reads from R0 on, wrapping, before the first zero word, each followed by the word's high byte
if that is not zero, in every state; in plain memory these are the words memory holds; a gated read of `KBSR_ADDR` ends the
string when nothing is pending and otherwise takes the key and emits the two bytes of 0x8000. -/
def Obligations.PutspEmitsLowThenNonzeroHighBytes : Prop :=
  EmitsString .putsp putspBytes ∧ putspBytes 0x8000 = [0x00, 0x80]

/-- R113, R115 with R32 and R120 (D5(b), assumptions 13 and 14): where string reads are gated, PUTS and PUTSP end in
every state, since a read of `KBSR_ADDR` ends the string as soon as no key is pending. This rests on the cycle being one
step that no keystroke arrives in (R72, D24; assumption 15): R72 excepts a string that covers `KBSR_ADDR`, and a key that
arrived between two polls of one walk, lap after lap, would keep the string going. -/
def Obligations.GatedStringRoutinesAlwaysEnd : Prop :=
  ∀ i ∈ [Instr.puts, Instr.putsp], ∀ s : State, s.cfg.trapReadsGated = true →
    ∃ t, exec i s = .next t ∧ t.walk = none

/-- R113, R115 (D11, assumption 13; the `walk` field is the model's, assumption 14, and the CORE acts throughout, assumption
5): past the gate, with no zero word in memory, the routine never ends: after any number `n` of steps the same routine is
still at work, the log has gained the bytes of more than `n` words, read from R0 on in memory's order and lap after lap, and
nothing else has changed but R7 (`EmitsForEver`, Sys2Proof/Safety.lean). -/
def Obligations.UngatedStringWithoutZeroIsEmittedForEver : Prop :=
  EmitsForEver .puts .puts putsBytes ∧ EmitsForEver .putsp .putsp putspBytes

/-! ## The two opcodes without an operation -/

/-- R125, whole: every word 0x8000 to 0x8FFF, and nothing but the fetch. -/
def Obligations.RtiDoesNothing : Prop :=
  (∀ ign : BitVec 12, decode (0b1000#4 ++ ign) = .rti) ∧ ∀ s : State, exec .rti s = .next s

/-- R126, whole: every word 0xD000 to 0xDFFF, and nothing but the fetch. -/
def Obligations.ResDoesNothing : Prop :=
  (∀ ign : BitVec 12, decode (0b1101#4 ++ ign) = .res) ∧ ∀ s : State, exec .res s = .next s

/-! ## Encoding -/

/-- R52, R57 with the example words of 41_operate.md to 45_reserved.md, written out bit by bit (a sanity statement). -/
def Obligations.ExampleWordsDecodeAsTheSpecSays : Prop :=
  decode 0b0001_000_000_1_00101#16 = .addImm 0 0 5 ∧ decode 0b0001_010_000_0_00_001#16 = .addReg 2 0 1 ∧
  decode 0b0010_001_000000101#16 = .ld 1 5 ∧ decode 0b0111_010_001_000011#16 = .str 2 1 3 ∧
  decode 0b0000_001_111111101#16 = .br 1 0x1FD ∧ decode 0b0100_1_00000000011#16 = .jsr 3 ∧
  decode 0b0100_0_00_010_000000#16 = .jsrr 2 ∧ decode 0b1111_0000_00100101#16 = .halt ∧
  decode 0b1111_0000_11111111#16 = .trap 0xFF ∧ decode 0b1101_111010101101#16 = .res

/-- Decoding the encoding of a well-formed instruction gives it back, with every operand at every value. -/
def Obligations.DecodeOfEncodeIsTheInstruction : Prop :=
  ∀ i : Instr, i.wf = true → decode (encode i) = i

/-- R57, whole (the opcode numbers are D1's, assumption 9): every one of the 65536 words selects exactly one of the 19
forms; that form is the decoded instruction's, or TRAP where the instruction is a refinement of it; and the decoded
instruction is well-formed. -/
def Obligations.EveryWordSelectsExactlyOneForm : Prop :=
  ∀ w : Word, (∃ r, formRows.filter (fun r => r.selects w) = [r] ∧
      ((decode w).row = r ∨ (r.mnemonic = "TRAP" ∧ (decode w).row ∈ trapRows))) ∧
    (decode w).row.selects w = true ∧ (decode w).wf = true

/-- R55 (D4, assumption 10): the ignored bits of a word do not affect what it is, and no value of them is illegal; the
encoder keeps every named bit. -/
def Obligations.IgnoredBitsDoNotMatter : Prop :=
  ∀ w v : Word, w &&& (decode w).namedBits = v &&& (decode w).namedBits →
    decode v = decode w ∧ encode (decode w) &&& (decode w).namedBits = w &&& (decode w).namedBits

/-! ## The cycle and the run -/

/-- R71, R13: when the CORE's next step is a cycle, the step reads the word at `pc` through the gate, increments `pc`
(wrapping) and is `exec` of the decoded word in that state, with the turn taken off the schedule. -/
def Obligations.StepExecutesTheDecodedWord : Prop :=
  ∀ s : State, s.cycleNext →
    let r := s.takeTurn.memRead s.pc
    step s = exec (decode r.1) (r.2.setPc (s.pc + 1)) ∧
    (s.pc ≠ s.cfg.kbsrAddr → step s = exec (decode (s.word s.pc)) (s.takeTurn.setPc (s.pc + 1)))

/-- R13, R12: an instruction that is no control transfer leaves the incremented PC in place. -/
def Obligations.OnlyControlTransfersWriteThePc : Prop :=
  ∀ (i : Instr) (s t : State), exec i s = .next t → t.pc ≠ s.pc →
    (∃ mask off, i = .br mask off) ∨ (∃ baseR, i = .jmp baseR) ∨ (∃ off, i = .jsr off) ∨ (∃ baseR, i = .jsrr baseR)

/-- R44: a store is seen by the next fetch: an ST at `pc` that writes the next word (offset 0) makes the stored value
the very next instruction. -/
def Obligations.StoredWordIsTheNextInstruction : Prop :=
  ∀ (s : State) (sr : Reg), s.cycleNext → s.schedule = [] → s.pc ≠ s.cfg.kbsrAddr → s.pc + 1 ≠ s.cfg.kbsrAddr →
    decode (s.word s.pc) = .st sr 0 →
    ∃ t, step s = .next t ∧ step t = exec (decode (s.reg sr)) (t.setPc (s.pc + 2))

/-- R76: execution cannot fail: every instruction in every state has a next state. -/
def Obligations.EveryInstructionCompletesInEveryState : Prop :=
  ∀ (i : Instr) (s : State), ∃ t, exec i s = .next t

/-- R70, R73, R77 (the two stops are the model's way of saying that no agent has a step, assumptions 3 and 4): a step
answers a next state, or the machine is halted, or the CORE holds in GETC or IN with no keystroke to come; it never
refuses. -/
def Obligations.OnlyHaltAndTheHoldHaveNoStep : Prop :=
  ∀ s : State,
    (∃ t, step s = .next t) ∧ s.run = .running ∨
    (step s = .fault .halted ∧ s.run = .halted) ∨
    (step s = .fault .hold ∧ s.run = .running ∧ s.phase ≠ .none ∧ s.walk = none ∧ s.kbd = [] ∧ s.schedule = [])

/-- R73 (with assumptions 4 and 5): in a wait with nothing pending the CORE does not fetch and has no step: a core turn
passes and changes nothing, a keystroke arrives, and with neither to come the machine stops at the hold. -/
def Obligations.BlockedRoutineHoldsUntilAKeystroke : Prop :=
  ∀ s : State, s.run = .running → s.walk = none → (s.phase = .getcWait ∨ s.phase = .inWait) → s.kbd = [] →
    (s.schedule = [] → step s = .fault .hold) ∧
    (∀ rest, s.schedule = .core :: rest → step s = .next { s with schedule := rest }) ∧
    (∀ c rest, s.schedule = .key c :: rest → step s = .next { s with schedule := rest, kbd := [c] })

/-- R145: a keystroke arrival appends one character to the pending queue of a running machine, in every phase, and does
nothing else. The `schedule` that gives the host its turn is the model's (assumption 5). -/
def Obligations.KeystrokeArrivalOnlyAppends : Prop :=
  ∀ (s : State) (c : Byte) (rest : List Turn), s.run = .running → s.schedule = .key c :: rest →
    ∃ t, step s = .next t ∧ t.kbd = s.kbd ++ [c] ∧ t.schedule = rest ∧ RegsKept [] s t ∧ MemKept [] s t ∧
      t.pc = s.pc ∧ t.cond = s.cond ∧ t.run = s.run ∧ t.phase = s.phase ∧ t.out = s.out ∧ t.walk = s.walk ∧
      t.cfg = s.cfg

/-- R70, R159 (the schedule that gives the CORE its turn is the model's, assumption 5): the run ends when a HALT trap
executes on the CORE's turn, and only then; in the final state `pc` and R7 hold the address after its
word, the log ends with the notice, and registers, COND, memory and the characters still pending are as the fetch left
them. -/
def Obligations.RunEndsOnlyByTheHaltTrap : Prop :=
  (∀ s : State, s.cycleNext → decode (s.takeTurn.memRead s.pc).1 = .halt → ∃ t, step s = .next t ∧ t.isFinal) ∧
  ∀ s t : State, step s = .next t → t.isFinal →
    s.cycleNext ∧ (let r := s.takeTurn.memRead s.pc
      decode r.1 = .halt ∧ t.pc = s.pc + 1 ∧ t.reg 7 = s.pc + 1 ∧ t.out = s.out ++ s.cfg.haltNotice ∧
      RegsKept [7] s t ∧ t.cond = s.cond ∧ MemKept [] r.2 t ∧ t.kbd = r.2.kbd)

/-- R15, R75: COND is written by the flag-updating instructions, each with the sign of its destination, and by the second half
of GETC and IN, with the sign of R0; by nothing else. That GETC and IN write it in a step of their own and not in the cycle
of the TRAP is the spec's D21 (assumption 16); the other steps that are no cycles are the model's turns and the laps of an
endless string (assumptions 5 and 14). -/
def Obligations.CondIsWrittenOnlyByFlagUpdaters : Prop :=
  (∀ (i : Instr) (s t : State), exec i s = .next t →
    match i with
    | .addReg dr _ _ | .addImm dr _ _ | .andReg dr _ _ | .andImm dr _ _ | .notReg dr _
    | .ld dr _ | .ldi dr _ | .ldr dr _ _ | .lea dr _ => t.cond = signOf (t.reg dr)
    | .br _ _ | .st _ _ | .jsr _ | .jsrr _ | .str _ _ _ | .rti | .sti _ _ | .jmp _ | .res | .trap _
    | .getc | .out | .puts | .inp | .putsp | .halt => t.cond = s.cond) ∧
  ∀ s t : State, step s = .next t → ¬ s.cycleNext →
    (s.phase ≠ .none ∧ t.phase = .none ∧ t.cond = signOf (t.reg 0)) ∨ (t.phase = s.phase ∧ t.cond = s.cond)

/-- R15: COND is read only by BR: any other instruction does the same whatever COND holds, but for COND itself. -/
def Obligations.CondIsReadOnlyByBranch : Prop :=
  ∀ i : Instr, (∀ mask off, i ≠ .br mask off) → ∀ (s t : State) (c : Cond), exec i s = .next t →
    ∃ t', exec i (s.setCond c) = .next t' ∧ t'.setCond t.cond = t ∧ (t'.cond = t.cond ∨ t'.cond = c)

/-- R11: which registers each instruction writes; a register it does not write reads as before. For GETC and IN the first
clause is about the first half, which writes R7 (D21, assumption 16); R0 is written by the second half, a step that is no
cycle, and such a step (assumptions 5 and 14 for the others of them) writes no other register, and R0 only where it ends a
wait. -/
def Obligations.InstructionsWriteOnlyTheirRegisters : Prop :=
  (∀ (i : Instr) (s t : State), exec i s = .next t →
    match i with
    | .addReg dr _ _ | .addImm dr _ _ | .andReg dr _ _ | .andImm dr _ _ | .notReg dr _
    | .ld dr _ | .ldi dr _ | .ldr dr _ _ | .lea dr _ => RegsKept [dr] s t
    | .jsr _ | .jsrr _ | .trap _ | .getc | .out | .puts | .inp | .putsp | .halt => RegsKept [7] s t ∧ t.reg 7 = s.pc
    | .br _ _ | .st _ _ | .str _ _ _ | .rti | .sti _ _ | .jmp _ | .res => RegsKept [] s t) ∧
  ∀ s t : State, step s = .next t → ¬ s.cycleNext →
    RegsKept [] s t ∨ (s.phase ≠ .none ∧ t.phase = .none ∧ RegsKept [0] s t)

/-- R31, R33, R38: what an instruction may change in memory: the word a store names, and the two device words by a gated
read; every other word reads as before. -/
def Obligations.MemoryIsWrittenOnlyByStoresAndTheGate : Prop :=
  ∀ (i : Instr) (s t : State), exec i s = .next t →
    match i with
    | .st _ off => MemKept [s.eaPc9 off] s t
    | .str _ baseR off => MemKept [s.eaBase baseR off] s t
    | .sti _ off => MemKept [s.cfg.kbsrAddr, s.cfg.kbdrAddr, (s.memRead (s.eaPc9 off)).1] s t
    | .ld _ _ | .ldr _ _ _ | .ldi _ _ | .puts | .putsp => MemKept [s.cfg.kbsrAddr, s.cfg.kbdrAddr] s t
    | .br _ _ | .addReg _ _ _ | .addImm _ _ _ | .andReg _ _ _ | .andImm _ _ _ | .notReg _ _ | .jsr _ | .jsrr _
    | .rti | .jmp _ | .res | .lea _ _ | .getc | .out | .inp | .halt => MemKept [] s t
    | .trap vector => vectorHasNoRoutine vector = true → MemKept [] s t

/-- R31's last row, R133: ADD, AND, NOT, LEA, BR, JMP, JSR, JSRR, RTI, RES and every TRAP but PUTS and PUTSP make no
memory access after the fetch: they do the same whatever memory holds (no vector is read from memory) and leave it. -/
def Obligations.OtherInstructionsMakeNoMemoryAccess : Prop :=
  ∀ (i : Instr) (s t : State) (m : Memory), exec i s = .next t →
    match i with
    | .br _ _ | .addReg _ _ _ | .addImm _ _ _ | .andReg _ _ _ | .andImm _ _ _ | .notReg _ _ | .jsr _ | .jsrr _
    | .rti | .jmp _ | .res | .lea _ _ | .getc | .out | .inp | .halt =>
      exec i { s with mem := m } = .next { t with mem := m } ∧ t.mem = s.mem
    | .trap vector => vectorHasNoRoutine vector = true →
      exec i { s with mem := m } = .next { t with mem := m } ∧ t.mem = s.mem
    | .ld _ _ | .st _ _ | .ldr _ _ _ | .str _ _ _ | .ldi _ _ | .sti _ _ | .puts | .putsp => True

/-- R24, R118, R119, R145: over a step the output log only grows at its end, and the pending queue loses characters only from
its head (the CORE) or gains one at its tail (the host). That the host's turn is a key turn at the head of the schedule is
the model's (assumption 5), and so is that the parameters stand in the state and stay (assumption 7). -/
def Obligations.ConsoleStreamsKeepTheirOrder : Prop :=
  ∀ s t : State, step s = .next t →
    s.out <+: t.out ∧ t.cfg = s.cfg ∧
    (t.kbd <:+ s.kbd ∨ ∃ c, s.schedule.head? = some (.key c) ∧ t.kbd = s.kbd ++ [c])

/-- The invariant of Sys2Proof/Safety.lean is kept by every step, from every state that meets it. -/
def Obligations.EveryStepKeepsTheInvariant : Prop :=
  ∀ s t : State, s.Inv → step s = .next t → t.Inv

/-- The invariant holds after reset. -/
def Obligations.ResetMeetsTheInvariant : Prop := State.reset.Inv

/-! ## Reset and the loader -/

/-- R22, whole: every register, `pc`, COND and all 65536 words after reset; and `pc` starts at 0x3000 whatever images
are loaded. -/
def Obligations.ResetZeroesEverythingButPcAndCond : Prop :=
  (∀ i : Reg, State.reset.reg i = 0x0000) ∧ State.reset.pc = 0x3000 ∧ State.reset.cond = .zero ∧
  (∀ a : Word, State.reset.word a = 0x0000) ∧
  ∀ (images : List (List Byte)) (s : State), boot images = some s → s.pc = 0x3000

/-- R23, R24: RUNNING and NONE after reset, with an empty log. That nothing is pending or scheduled and which
parameters hold are the model's choices (D17, D20, D21; assumptions 5, 6, 7, 14 and 24). -/
def Obligations.ResetStartsRunningWithAnEmptyLog : Prop :=
  State.reset.run = .running ∧ State.reset.phase = .none ∧ State.reset.out = [] ∧ State.reset.runStatus = 1 ∧
  State.reset.kbd = [] ∧ State.reset.schedule = [] ∧ State.reset.walk = none ∧
  State.reset.cfg.kbsrAddr = 0xFE00 ∧ State.reset.cfg.kbdrAddr = 0xFE02 ∧ State.reset.cfg.trapReadsGated = true

/-- R154 with R152, R153 (a lone last byte and direct writes are D18 and D27, assumption 20): a load of at least two bytes
succeeds, writes the big-endian words that fit from the origin up and no other word, and changes nothing but memory;
a shorter one fails. -/
def Obligations.LoadWritesItsWordsAndNothingElse : Prop :=
  ∀ (bytes : List Byte) (s : State),
    (bytes.length < 2 → loadImage bytes s = .failure) ∧
    (2 ≤ bytes.length → ∃ t, loadImage bytes s = .success t ∧
      (∀ i < imageCount bytes, t.word (BitVec.ofNat 16 (imageOrigin bytes + i)) = imageWord bytes i) ∧
      (∀ a : Word, ¬ inImage bytes a → t.word a = s.word a) ∧
      RegsKept [] s t ∧ t.pc = s.pc ∧ t.cond = s.cond ∧ ConsoleKept s t ∧ ModeKept s t)

/-- R156 (with D18, D27, assumption 20) and the source's property S7: after two loads the second image is in its place,
the first is where the second does not overlap it, and no other word has changed. -/
def Obligations.LaterImageWinsAndDisjointImagesCoexist : Prop :=
  ∀ (img1 img2 : List Byte) (s : State), 2 ≤ img1.length → 2 ≤ img2.length →
    ∃ u, loadImages [img1, img2] s = some u ∧
      (∀ i < imageCount img2, u.word (BitVec.ofNat 16 (imageOrigin img2 + i)) = imageWord img2 i) ∧
      (∀ i < imageCount img1, ¬ inImage img2 (BitVec.ofNat 16 (imageOrigin img1 + i)) →
        u.word (BitVec.ofNat 16 (imageOrigin img1 + i)) = imageWord img1 i) ∧
      ∀ a : Word, ¬ inImage img1 a → ¬ inImage img2 a → u.word a = s.word a

/-- R157, R151, R155, R156: execution starts in the reset state as changed by the loads: only memory differs from reset, and it
is canonical (assumption 1); it holds every word of every image where no later image covers it, and 0x0000 where no image
is. That a launch with an image that fails to load has no run is the spec's decision D19, and D18 and D27 are its readings
of a load (assumption 20). -/
def Obligations.LaunchStartsFromResetWithTheImages : Prop :=
  (∀ (images : List (List Byte)) (s : State), boot images = some s →
    s = { State.reset with mem := s.mem } ∧ s.Inv ∧
    (∀ before img later, images = before ++ img :: later → ∀ i < imageCount img,
      (∀ img' ∈ later, ¬ inImage img' (BitVec.ofNat 16 (imageOrigin img + i))) →
      s.word (BitVec.ofNat 16 (imageOrigin img + i)) = imageWord img i) ∧
    ∀ a : Word, (∀ img ∈ images, ¬ inImage img a) → s.word a = 0x0000) ∧
  ∀ images : List (List Byte), boot images = none ↔ ∃ bytes ∈ images, bytes.length < 2
end

