-- ==== Sys2Proof/Laws/Decode.lean ====
section
/-! SUPPORT. The fields of an instruction word, and what the decoder can answer. -/

namespace Sys2Proof

@[simp] theorem Reg.ofBits_bits (r : Reg) : Reg.ofBits r.bits = r := rfl

@[simp] theorem Reg.bits_ofBits (b : BitVec 3) : (Reg.ofBits b).bits = b := rfl

/-- Two words that agree on a mask agree on every field the mask covers. -/
theorem extract_eq_of_and_eq {w v m : Word} (h : w &&& m = v &&& m) {lo len : Nat}
    (hm : ∀ i < len, m.getLsbD (lo + i) = true) : w.extractLsb' lo len = v.extractLsb' lo len := by
  apply BitVec.eq_of_getLsbD_eq
  intro i hi
  have hb : (w &&& m).getLsbD (lo + i) = (v &&& m).getLsbD (lo + i) := by rw [h]
  simpa [hm i hi, hi] using hb

/-- The same for one bit. -/
theorem bit_eq_of_and_eq {w v m : Word} (h : w &&& m = v &&& m) {i : Nat} (hm : m.getLsbD i = true) :
    w.getLsbD i = v.getLsbD i := by
  have hb : (w &&& m).getLsbD i = (v &&& m).getLsbD i := by rw [h]
  simpa [hm] using hb

/-- A vector without a routine is none of the six. -/
theorem vectorHasNoRoutine_iff (v : BitVec 8) : vectorHasNoRoutine v = true ↔
    v ≠ 0x20#8 ∧ v ≠ 0x21#8 ∧ v ≠ 0x22#8 ∧ v ≠ 0x23#8 ∧ v ≠ 0x24#8 ∧ v ≠ 0x25#8 := by
  have key (n : Nat) (hn : n < 256) : v = BitVec.ofNat 8 n ↔ v.toNat = n := by
    constructor
    · rintro rfl; simp [Nat.mod_eq_of_lt hn]
    · intro e; apply BitVec.eq_of_toNat_eq; simp [e, Nat.mod_eq_of_lt hn]
  simp only [vectorHasNoRoutine, Bool.or_eq_true, decide_eq_true_eq, BitVec.lt_def, ne_eq, key _ (by omega : 0x20 < 256),
    key _ (by omega : 0x21 < 256), key _ (by omega : 0x22 < 256), key _ (by omega : 0x23 < 256),
    key _ (by omega : 0x24 < 256), key _ (by omega : 0x25 < 256), BitVec.toNat_ofNat]
  omega

/-- The refinement of TRAP gives a well-formed instruction. -/
theorem decodeTrap_wf (v : BitVec 8) : (decodeTrap v).wf = true := by
  by_cases h : vectorHasNoRoutine v = true
  · obtain ⟨h0, h1, h2, h3, h4, h5⟩ := (vectorHasNoRoutine_iff v).1 h
    simpa [decodeTrap, h0, h1, h2, h3, h4, h5, Instr.wf] using h
  · unfold decodeTrap
    split_ifs with h0 h1 h2 h3 h4 h5 <;> try rfl
    exact absurd ((vectorHasNoRoutine_iff v).2 ⟨h0, h1, h2, h3, h4, h5⟩) h

/-- Every decoded instruction is well-formed. -/
theorem decode_wf (w : Word) : (decode w).wf = true := by
  unfold decode
  split <;> first | rfl | (split <;> rfl) | exact decodeTrap_wf _

end Sys2Proof
end

