-- ==== Sys2Proof/Laws/State.lean ====
section
/-! SUPPORT. What each update of the state does to each field and to each accessor. -/

namespace Sys2Proof.Machine

/-! ## setWord -/

@[simp] theorem State.setWord_regs (s : State) (a v : Word) : (s.setWord a v).regs = s.regs := rfl
@[simp] theorem State.setWord_pc (s : State) (a v : Word) : (s.setWord a v).pc = s.pc := rfl
@[simp] theorem State.setWord_cond (s : State) (a v : Word) : (s.setWord a v).cond = s.cond := rfl
@[simp] theorem State.setWord_run (s : State) (a v : Word) : (s.setWord a v).run = s.run := rfl
@[simp] theorem State.setWord_phase (s : State) (a v : Word) : (s.setWord a v).phase = s.phase := rfl
@[simp] theorem State.setWord_mem (s : State) (a v : Word) : (s.setWord a v).mem = s.mem.write a.toNat v := rfl
@[simp] theorem State.setWord_kbd (s : State) (a v : Word) : (s.setWord a v).kbd = s.kbd := rfl
@[simp] theorem State.setWord_out (s : State) (a v : Word) : (s.setWord a v).out = s.out := rfl
@[simp] theorem State.setWord_walk (s : State) (a v : Word) : (s.setWord a v).walk = s.walk := rfl
@[simp] theorem State.setWord_schedule (s : State) (a v : Word) : (s.setWord a v).schedule = s.schedule := rfl
@[simp] theorem State.setWord_cfg (s : State) (a v : Word) : (s.setWord a v).cfg = s.cfg := rfl
@[simp] theorem State.setWord_reg (s : State) (a v : Word) (r : Reg) : (s.setWord a v).reg r = s.reg r := rfl

/-! ## setReg -/

@[simp] theorem State.setReg_regs (s : State) (i : Reg) (v : Word) : (s.setReg i v).regs = s.regs.set i v := rfl
@[simp] theorem State.setReg_pc (s : State) (i : Reg) (v : Word) : (s.setReg i v).pc = s.pc := rfl
@[simp] theorem State.setReg_cond (s : State) (i : Reg) (v : Word) : (s.setReg i v).cond = s.cond := rfl
@[simp] theorem State.setReg_run (s : State) (i : Reg) (v : Word) : (s.setReg i v).run = s.run := rfl
@[simp] theorem State.setReg_phase (s : State) (i : Reg) (v : Word) : (s.setReg i v).phase = s.phase := rfl
@[simp] theorem State.setReg_mem (s : State) (i : Reg) (v : Word) : (s.setReg i v).mem = s.mem := rfl
@[simp] theorem State.setReg_kbd (s : State) (i : Reg) (v : Word) : (s.setReg i v).kbd = s.kbd := rfl
@[simp] theorem State.setReg_out (s : State) (i : Reg) (v : Word) : (s.setReg i v).out = s.out := rfl
@[simp] theorem State.setReg_walk (s : State) (i : Reg) (v : Word) : (s.setReg i v).walk = s.walk := rfl
@[simp] theorem State.setReg_schedule (s : State) (i : Reg) (v : Word) : (s.setReg i v).schedule = s.schedule := rfl
@[simp] theorem State.setReg_cfg (s : State) (i : Reg) (v : Word) : (s.setReg i v).cfg = s.cfg := rfl
@[simp] theorem State.setReg_word (s : State) (i : Reg) (v : Word) (x : Word) : (s.setReg i v).word x = s.word x := rfl

/-! ## setPc -/

@[simp] theorem State.setPc_regs (s : State) (p : Word) : (s.setPc p).regs = s.regs := rfl
@[simp] theorem State.setPc_pc (s : State) (p : Word) : (s.setPc p).pc = p := rfl
@[simp] theorem State.setPc_cond (s : State) (p : Word) : (s.setPc p).cond = s.cond := rfl
@[simp] theorem State.setPc_run (s : State) (p : Word) : (s.setPc p).run = s.run := rfl
@[simp] theorem State.setPc_phase (s : State) (p : Word) : (s.setPc p).phase = s.phase := rfl
@[simp] theorem State.setPc_mem (s : State) (p : Word) : (s.setPc p).mem = s.mem := rfl
@[simp] theorem State.setPc_kbd (s : State) (p : Word) : (s.setPc p).kbd = s.kbd := rfl
@[simp] theorem State.setPc_out (s : State) (p : Word) : (s.setPc p).out = s.out := rfl
@[simp] theorem State.setPc_walk (s : State) (p : Word) : (s.setPc p).walk = s.walk := rfl
@[simp] theorem State.setPc_schedule (s : State) (p : Word) : (s.setPc p).schedule = s.schedule := rfl
@[simp] theorem State.setPc_cfg (s : State) (p : Word) : (s.setPc p).cfg = s.cfg := rfl
@[simp] theorem State.setPc_reg (s : State) (p : Word) (r : Reg) : (s.setPc p).reg r = s.reg r := rfl
@[simp] theorem State.setPc_word (s : State) (p : Word) (x : Word) : (s.setPc p).word x = s.word x := rfl

/-! ## setCond -/

@[simp] theorem State.setCond_regs (s : State) (f : Cond) : (s.setCond f).regs = s.regs := rfl
@[simp] theorem State.setCond_pc (s : State) (f : Cond) : (s.setCond f).pc = s.pc := rfl
@[simp] theorem State.setCond_cond (s : State) (f : Cond) : (s.setCond f).cond = f := rfl
@[simp] theorem State.setCond_run (s : State) (f : Cond) : (s.setCond f).run = s.run := rfl
@[simp] theorem State.setCond_phase (s : State) (f : Cond) : (s.setCond f).phase = s.phase := rfl
@[simp] theorem State.setCond_mem (s : State) (f : Cond) : (s.setCond f).mem = s.mem := rfl
@[simp] theorem State.setCond_kbd (s : State) (f : Cond) : (s.setCond f).kbd = s.kbd := rfl
@[simp] theorem State.setCond_out (s : State) (f : Cond) : (s.setCond f).out = s.out := rfl
@[simp] theorem State.setCond_walk (s : State) (f : Cond) : (s.setCond f).walk = s.walk := rfl
@[simp] theorem State.setCond_schedule (s : State) (f : Cond) : (s.setCond f).schedule = s.schedule := rfl
@[simp] theorem State.setCond_cfg (s : State) (f : Cond) : (s.setCond f).cfg = s.cfg := rfl
@[simp] theorem State.setCond_reg (s : State) (f : Cond) (r : Reg) : (s.setCond f).reg r = s.reg r := rfl
@[simp] theorem State.setCond_word (s : State) (f : Cond) (x : Word) : (s.setCond f).word x = s.word x := rfl

/-! ## stop -/

@[simp] theorem State.stop_regs (s : State) : (s.stop).regs = s.regs := rfl
@[simp] theorem State.stop_pc (s : State) : (s.stop).pc = s.pc := rfl
@[simp] theorem State.stop_cond (s : State) : (s.stop).cond = s.cond := rfl
@[simp] theorem State.stop_run (s : State) : (s.stop).run = .halted := rfl
@[simp] theorem State.stop_phase (s : State) : (s.stop).phase = s.phase := rfl
@[simp] theorem State.stop_mem (s : State) : (s.stop).mem = s.mem := rfl
@[simp] theorem State.stop_kbd (s : State) : (s.stop).kbd = s.kbd := rfl
@[simp] theorem State.stop_out (s : State) : (s.stop).out = s.out := rfl
@[simp] theorem State.stop_walk (s : State) : (s.stop).walk = s.walk := rfl
@[simp] theorem State.stop_schedule (s : State) : (s.stop).schedule = s.schedule := rfl
@[simp] theorem State.stop_cfg (s : State) : (s.stop).cfg = s.cfg := rfl
@[simp] theorem State.stop_reg (s : State) (r : Reg) : (s.stop).reg r = s.reg r := rfl
@[simp] theorem State.stop_word (s : State) (x : Word) : (s.stop).word x = s.word x := rfl

/-! ## setPhase -/

@[simp] theorem State.setPhase_regs (s : State) (p : Phase) : (s.setPhase p).regs = s.regs := rfl
@[simp] theorem State.setPhase_pc (s : State) (p : Phase) : (s.setPhase p).pc = s.pc := rfl
@[simp] theorem State.setPhase_cond (s : State) (p : Phase) : (s.setPhase p).cond = s.cond := rfl
@[simp] theorem State.setPhase_run (s : State) (p : Phase) : (s.setPhase p).run = s.run := rfl
@[simp] theorem State.setPhase_phase (s : State) (p : Phase) : (s.setPhase p).phase = p := rfl
@[simp] theorem State.setPhase_mem (s : State) (p : Phase) : (s.setPhase p).mem = s.mem := rfl
@[simp] theorem State.setPhase_kbd (s : State) (p : Phase) : (s.setPhase p).kbd = s.kbd := rfl
@[simp] theorem State.setPhase_out (s : State) (p : Phase) : (s.setPhase p).out = s.out := rfl
@[simp] theorem State.setPhase_walk (s : State) (p : Phase) : (s.setPhase p).walk = s.walk := rfl
@[simp] theorem State.setPhase_schedule (s : State) (p : Phase) : (s.setPhase p).schedule = s.schedule := rfl
@[simp] theorem State.setPhase_cfg (s : State) (p : Phase) : (s.setPhase p).cfg = s.cfg := rfl
@[simp] theorem State.setPhase_reg (s : State) (p : Phase) (r : Reg) : (s.setPhase p).reg r = s.reg r := rfl
@[simp] theorem State.setPhase_word (s : State) (p : Phase) (x : Word) : (s.setPhase p).word x = s.word x := rfl

/-! ## outByte -/

@[simp] theorem State.outByte_regs (s : State) (b : Byte) : (s.outByte b).regs = s.regs := rfl
@[simp] theorem State.outByte_pc (s : State) (b : Byte) : (s.outByte b).pc = s.pc := rfl
@[simp] theorem State.outByte_cond (s : State) (b : Byte) : (s.outByte b).cond = s.cond := rfl
@[simp] theorem State.outByte_run (s : State) (b : Byte) : (s.outByte b).run = s.run := rfl
@[simp] theorem State.outByte_phase (s : State) (b : Byte) : (s.outByte b).phase = s.phase := rfl
@[simp] theorem State.outByte_mem (s : State) (b : Byte) : (s.outByte b).mem = s.mem := rfl
@[simp] theorem State.outByte_kbd (s : State) (b : Byte) : (s.outByte b).kbd = s.kbd := rfl
@[simp] theorem State.outByte_out (s : State) (b : Byte) : (s.outByte b).out = s.out ++ [b] := rfl
@[simp] theorem State.outByte_walk (s : State) (b : Byte) : (s.outByte b).walk = s.walk := rfl
@[simp] theorem State.outByte_schedule (s : State) (b : Byte) : (s.outByte b).schedule = s.schedule := rfl
@[simp] theorem State.outByte_cfg (s : State) (b : Byte) : (s.outByte b).cfg = s.cfg := rfl
@[simp] theorem State.outByte_reg (s : State) (b : Byte) (r : Reg) : (s.outByte b).reg r = s.reg r := rfl
@[simp] theorem State.outByte_word (s : State) (b : Byte) (x : Word) : (s.outByte b).word x = s.word x := rfl

/-! ## outBytes -/

@[simp] theorem State.outBytes_regs (s : State) (bs : List Byte) : (s.outBytes bs).regs = s.regs := rfl
@[simp] theorem State.outBytes_pc (s : State) (bs : List Byte) : (s.outBytes bs).pc = s.pc := rfl
@[simp] theorem State.outBytes_cond (s : State) (bs : List Byte) : (s.outBytes bs).cond = s.cond := rfl
@[simp] theorem State.outBytes_run (s : State) (bs : List Byte) : (s.outBytes bs).run = s.run := rfl
@[simp] theorem State.outBytes_phase (s : State) (bs : List Byte) : (s.outBytes bs).phase = s.phase := rfl
@[simp] theorem State.outBytes_mem (s : State) (bs : List Byte) : (s.outBytes bs).mem = s.mem := rfl
@[simp] theorem State.outBytes_kbd (s : State) (bs : List Byte) : (s.outBytes bs).kbd = s.kbd := rfl
@[simp] theorem State.outBytes_out (s : State) (bs : List Byte) : (s.outBytes bs).out = s.out ++ bs := rfl
@[simp] theorem State.outBytes_walk (s : State) (bs : List Byte) : (s.outBytes bs).walk = s.walk := rfl
@[simp] theorem State.outBytes_schedule (s : State) (bs : List Byte) : (s.outBytes bs).schedule = s.schedule := rfl
@[simp] theorem State.outBytes_cfg (s : State) (bs : List Byte) : (s.outBytes bs).cfg = s.cfg := rfl
@[simp] theorem State.outBytes_reg (s : State) (bs : List Byte) (r : Reg) : (s.outBytes bs).reg r = s.reg r := rfl
@[simp] theorem State.outBytes_word (s : State) (bs : List Byte) (x : Word) : (s.outBytes bs).word x = s.word x := rfl

/-! ## keyArrive -/

@[simp] theorem State.keyArrive_regs (s : State) (c : Byte) : (s.keyArrive c).regs = s.regs := rfl
@[simp] theorem State.keyArrive_pc (s : State) (c : Byte) : (s.keyArrive c).pc = s.pc := rfl
@[simp] theorem State.keyArrive_cond (s : State) (c : Byte) : (s.keyArrive c).cond = s.cond := rfl
@[simp] theorem State.keyArrive_run (s : State) (c : Byte) : (s.keyArrive c).run = s.run := rfl
@[simp] theorem State.keyArrive_phase (s : State) (c : Byte) : (s.keyArrive c).phase = s.phase := rfl
@[simp] theorem State.keyArrive_mem (s : State) (c : Byte) : (s.keyArrive c).mem = s.mem := rfl
@[simp] theorem State.keyArrive_kbd (s : State) (c : Byte) : (s.keyArrive c).kbd = s.kbd ++ [c] := rfl
@[simp] theorem State.keyArrive_out (s : State) (c : Byte) : (s.keyArrive c).out = s.out := rfl
@[simp] theorem State.keyArrive_walk (s : State) (c : Byte) : (s.keyArrive c).walk = s.walk := rfl
@[simp] theorem State.keyArrive_schedule (s : State) (c : Byte) : (s.keyArrive c).schedule = s.schedule := rfl
@[simp] theorem State.keyArrive_cfg (s : State) (c : Byte) : (s.keyArrive c).cfg = s.cfg := rfl
@[simp] theorem State.keyArrive_reg (s : State) (c : Byte) (r : Reg) : (s.keyArrive c).reg r = s.reg r := rfl
@[simp] theorem State.keyArrive_word (s : State) (c : Byte) (x : Word) : (s.keyArrive c).word x = s.word x := rfl

/-! ## setSchedule -/

@[simp] theorem State.setSchedule_regs (s : State) (ts : List Turn) : (s.setSchedule ts).regs = s.regs := rfl
@[simp] theorem State.setSchedule_pc (s : State) (ts : List Turn) : (s.setSchedule ts).pc = s.pc := rfl
@[simp] theorem State.setSchedule_cond (s : State) (ts : List Turn) : (s.setSchedule ts).cond = s.cond := rfl
@[simp] theorem State.setSchedule_run (s : State) (ts : List Turn) : (s.setSchedule ts).run = s.run := rfl
@[simp] theorem State.setSchedule_phase (s : State) (ts : List Turn) : (s.setSchedule ts).phase = s.phase := rfl
@[simp] theorem State.setSchedule_mem (s : State) (ts : List Turn) : (s.setSchedule ts).mem = s.mem := rfl
@[simp] theorem State.setSchedule_kbd (s : State) (ts : List Turn) : (s.setSchedule ts).kbd = s.kbd := rfl
@[simp] theorem State.setSchedule_out (s : State) (ts : List Turn) : (s.setSchedule ts).out = s.out := rfl
@[simp] theorem State.setSchedule_walk (s : State) (ts : List Turn) : (s.setSchedule ts).walk = s.walk := rfl
@[simp] theorem State.setSchedule_schedule (s : State) (ts : List Turn) : (s.setSchedule ts).schedule = ts := rfl
@[simp] theorem State.setSchedule_cfg (s : State) (ts : List Turn) : (s.setSchedule ts).cfg = s.cfg := rfl
@[simp] theorem State.setSchedule_reg (s : State) (ts : List Turn) (r : Reg) : (s.setSchedule ts).reg r = s.reg r := rfl
@[simp] theorem State.setSchedule_word (s : State) (ts : List Turn) (x : Word) : (s.setSchedule ts).word x = s.word x := rfl

/-! ## Registers read back -/

@[simp] theorem State.reg_setReg_self (s : State) (i : Reg) (v : Word) : (s.setReg i v).reg i = v := by
  simp [State.reg, State.setReg]

theorem State.reg_setReg_of_ne {i j : Reg} (h : j ≠ i) (s : State) (v : Word) : (s.setReg i v).reg j = s.reg j := by
  have : (i : Nat) ≠ j := fun e => h (Fin.ext e.symm)
  simp [State.reg, State.setReg, this]

theorem State.reg_setReg (s : State) (i j : Reg) (v : Word) : (s.setReg i v).reg j = if j = i then v else s.reg j := by
  split
  · next h => subst h; simp
  · next h => exact State.reg_setReg_of_ne h s v

/-! ## The flush and the composed updates -/

@[simp] theorem State.outFlush_eq (s : State) : s.outFlush = s := rfl

@[simp] theorem State.trapEntry_eq (s : State) : s.trapEntry = s.setReg 7 s.pc := rfl

@[simp] theorem State.link_eq (s : State) : s.link = s.setReg 7 s.pc := rfl

@[simp] theorem State.memWrite_eq (s : State) (a v : Word) : s.memWrite a v = s.setWord a v := rfl

@[simp] theorem add16_eq (a b : Word) : add16 a b = a + b := rfl

end Sys2Proof.Machine
end

