-- ==== Sys2Proof/Laws/Memory.lean ====
section
/-! SUPPORT. The laws of the storage words: read after write, and the canonical form. -/

namespace Sys2Proof.Machine

/-! ## Reading after erasing, inserting, writing -/

theorem Memory.read_erase (m : Memory) (a b : Nat) : (m.erase a).read b = if b = a then 0x0000 else m.read b := by
  induction m with
  | nil => simp [Memory.erase, Memory.read]
  | cons e rest ih =>
    obtain ⟨k, v⟩ := e
    by_cases hk : k = a
    · by_cases hb : b = a
      · subst hb; simpa [Memory.erase, hk] using ih
      · simpa [Memory.erase, Memory.read, hk, hb, Ne.symm hb] using ih
    · by_cases hb : k = b
      · subst hb; simp [Memory.erase, Memory.read, hk]
      · simp [Memory.erase, Memory.read, hk, hb, ih]

theorem Memory.read_insert (m : Memory) (a b : Nat) (w : Word) (h : ∀ v, (a, v) ∉ m) :
    (m.insert a w).read b = if b = a then w else m.read b := by
  induction m with
  | nil => simp [Memory.insert, Memory.read, eq_comm]
  | cons e rest ih =>
    obtain ⟨k, v⟩ := e
    have hk : k ≠ a := fun e => h v (by simp [e])
    have ih := ih fun v' hv' => h v' (by simp [hv'])
    unfold Memory.insert
    split
    · by_cases hb : b = a
      · simp [Memory.read, hb]
      · simp [Memory.read, hb, Ne.symm hb]
    · by_cases hb : k = b
      · subst hb; simp [Memory.read, hk]
      · simp [Memory.read, hb, ih]

theorem Memory.not_mem_erase (m : Memory) (a : Nat) (v : Word) : (a, v) ∉ m.erase a := by
  induction m with
  | nil => simp [Memory.erase]
  | cons e rest ih =>
    obtain ⟨k, w⟩ := e
    by_cases hk : k = a
    · simpa [Memory.erase, hk] using ih
    · simp [Memory.erase, hk, ih, Ne.symm hk]

/-- A write is read back at its address and nowhere else. -/
theorem Memory.read_write (m : Memory) (a b : Nat) (w : Word) :
    (m.write a w).read b = if b = a then w else m.read b := by
  unfold Memory.write
  split
  · next h => simp [Memory.read_erase, h]
  · rw [Memory.read_insert _ _ _ _ (Memory.not_mem_erase m a), Memory.read_erase]
    split <;> rfl

/-! ## The canonical form -/

theorem Memory.wfFrom_mono {lo lo' : Nat} (h : lo' ≤ lo) {m : Memory} (hm : Memory.wfFrom lo m = true) :
    Memory.wfFrom lo' m = true := by
  cases m with
  | nil => rfl
  | cons e rest =>
    simp only [Memory.wfFrom, Bool.and_eq_true, decide_eq_true_eq] at hm ⊢
    exact ⟨⟨⟨h.trans hm.1.1.1, hm.1.1.2⟩, hm.1.2⟩, hm.2⟩

theorem Memory.wfFrom_erase {lo : Nat} {m : Memory} (hm : Memory.wfFrom lo m = true) (a : Nat) :
    Memory.wfFrom lo (m.erase a) = true := by
  induction m generalizing lo with
  | nil => rfl
  | cons e rest ih =>
    obtain ⟨k, v⟩ := e
    simp only [Memory.wfFrom, Bool.and_eq_true, decide_eq_true_eq] at hm
    unfold Memory.erase
    split
    · exact Memory.wfFrom_mono (by omega) (ih hm.2)
    · simp only [Memory.wfFrom, Bool.and_eq_true, decide_eq_true_eq]
      exact ⟨hm.1, ih hm.2⟩

theorem Memory.wfFrom_insert {lo a : Nat} {w : Word} {m : Memory} (hm : Memory.wfFrom lo m = true) (hlo : lo ≤ a)
    (ha : a < 65536) (hw : w ≠ 0x0000) (hn : ∀ v, (a, v) ∉ m) : Memory.wfFrom lo (m.insert a w) = true := by
  induction m generalizing lo with
  | nil => simpa [Memory.insert, Memory.wfFrom, hlo, ha] using hw
  | cons e rest ih =>
    obtain ⟨k, v⟩ := e
    have hk : k ≠ a := fun e => hn v (by simp [e])
    simp only [Memory.wfFrom, Bool.and_eq_true, decide_eq_true_eq] at hm
    unfold Memory.insert
    split
    · next h =>
      simp only [Memory.wfFrom, Bool.and_eq_true, decide_eq_true_eq]
      exact ⟨⟨⟨hlo, ha⟩, by simpa using hw⟩, ⟨⟨⟨h, hm.1.1.2⟩, hm.1.2⟩, hm.2⟩⟩
    · next h =>
      simp only [Memory.wfFrom, Bool.and_eq_true, decide_eq_true_eq]
      exact ⟨hm.1, ih hm.2 (by omega) fun v' hv' => hn v' (by simp [hv'])⟩

/-- A write to an address of the space keeps the canonical form. -/
theorem Memory.wf_write {m : Memory} (hm : m.wf = true) {a : Nat} (ha : a < 65536) (w : Word) :
    (m.write a w).wf = true := by
  unfold Memory.write
  split
  · exact Memory.wfFrom_erase hm a
  · next h => exact Memory.wfFrom_insert (Memory.wfFrom_erase hm a) (Nat.zero_le a) ha h (Memory.not_mem_erase m a)

/-! ## The same, for the state -/

@[simp] theorem State.word_setWord_self (s : State) (a v : Word) : (s.setWord a v).word a = v := by
  simp [State.word, Memory.read_write]

theorem State.word_setWord_of_ne {a b : Word} (h : b ≠ a) (s : State) (v : Word) :
    (s.setWord a v).word b = s.word b := by
  have : b.toNat ≠ a.toNat := fun e => h (BitVec.eq_of_toNat_eq e)
  simp [State.word, Memory.read_write, this]

theorem State.word_setWord (s : State) (a b v : Word) :
    (s.setWord a v).word b = if b = a then v else s.word b := by
  split
  · next h => subst h; simp
  · next h => exact State.word_setWord_of_ne h s v

theorem State.setWord_mem_wf {s : State} (h : s.mem.wf = true) (a v : Word) : (s.setWord a v).mem.wf = true :=
  Memory.wf_write h a.isLt v

end Sys2Proof.Machine
end

