-- ==== Sys2Proof/Laws/Ops.lean ====
section
/-! SUPPORT. Once for each shared operation: everything it can do. -/

namespace Sys2Proof.Machine

/-! ## The poll and the gated read (R32) -/

/-- A state that differs from another at most in what the I/O gate writes: the two device words and a character taken
from the head of the pending queue. -/
structure State.GateOf (s t : State) : Prop where
  regs : t.regs = s.regs
  pc : t.pc = s.pc
  cond : t.cond = s.cond
  run : t.run = s.run
  phase : t.phase = s.phase
  out : t.out = s.out
  walk : t.walk = s.walk
  schedule : t.schedule = s.schedule
  cfg : t.cfg = s.cfg
  kbd : t.kbd <:+ s.kbd
  word : ∀ a, a ≠ s.cfg.kbsrAddr → a ≠ s.cfg.kbdrAddr → t.word a = s.word a
  wf : s.mem.wf = true → t.mem.wf = true

theorem State.GateOf.refl (s : State) : s.GateOf s :=
  ⟨rfl, rfl, rfl, rfl, rfl, rfl, rfl, rfl, rfl, List.suffix_refl _, fun _ _ _ => rfl, id⟩

theorem State.GateOf.reg {s t : State} (h : s.GateOf t) (r : Reg) : t.reg r = s.reg r := by
  simp [State.reg, h.regs]

theorem State.GateOf.trans {s t u : State} (h : s.GateOf t) (g : t.GateOf u) : s.GateOf u :=
  ⟨g.regs.trans h.regs, g.pc.trans h.pc, g.cond.trans h.cond, g.run.trans h.run, g.phase.trans h.phase,
   g.out.trans h.out, g.walk.trans h.walk, g.schedule.trans h.schedule, g.cfg.trans h.cfg, g.kbd.trans h.kbd,
   fun a h1 h2 => (g.word a (by rwa [h.cfg]) (by rwa [h.cfg])).trans (h.word a h1 h2), fun w => g.wf (h.wf w)⟩

/-- The poll with a character pending. -/
theorem State.poll_of_cons {s : State} {c : Byte} {rest : List Byte} (h : s.kbd = c :: rest) :
    s.poll = (({ s with kbd := rest } : State).setWord s.cfg.kbsrAddr 0x8000).setWord s.cfg.kbdrAddr (zext16 c) := by
  simp [State.poll, h]

/-- The poll with nothing pending. -/
theorem State.poll_of_nil {s : State} (h : s.kbd = []) : s.poll = s.setWord s.cfg.kbsrAddr 0x0000 := by
  simp [State.poll, h]

theorem State.poll_gateOf (s : State) : s.GateOf s.poll := by
  cases h : s.kbd with
  | nil =>
    rw [State.poll_of_nil h]
    exact ⟨rfl, rfl, rfl, rfl, rfl, rfl, rfl, rfl, rfl, List.suffix_refl _,
      fun a h1 _ => State.word_setWord_of_ne h1 s _, fun w => State.setWord_mem_wf w _ _⟩
  | cons c rest =>
    rw [State.poll_of_cons h]
    refine ⟨rfl, rfl, rfl, rfl, rfl, rfl, rfl, rfl, rfl, ?_, fun a h1 h2 => ?_, fun w => ?_⟩
    · exact ⟨[c], by simp [h]⟩
    · rw [State.word_setWord_of_ne h2, State.word_setWord_of_ne h1]; rfl
    · exact State.setWord_mem_wf (State.setWord_mem_wf (s := { s with kbd := rest }) w _ _) _ _

theorem State.gate_gateOf (s : State) (a : Word) : s.GateOf (s.gate a) := by
  unfold State.gate
  split
  · exact s.poll_gateOf
  · exact .refl s

/-- A gated read changes at most what the gate writes. -/
theorem State.memRead_gateOf (s : State) (a : Word) : s.GateOf (s.memRead a).2 := s.gate_gateOf a

/-- A read of any address but `KBSR_ADDR` changes nothing and returns the stored word. -/
theorem State.memRead_of_ne {s : State} {a : Word} (h : a ≠ s.cfg.kbsrAddr) : s.memRead a = (s.word a, s) := by
  simp [State.memRead, State.gate, h]

/-- A read of `KBSR_ADDR` with nothing pending returns 0x0000. -/
theorem State.memRead_kbsr_of_nil {s : State} (h : s.kbd = []) :
    s.memRead s.cfg.kbsrAddr = (0x0000, s.setWord s.cfg.kbsrAddr 0x0000) := by
  simp [State.memRead, State.gate, State.poll_of_nil h]

/-- A string read changes at most what the gate writes. -/
theorem State.strRead_gateOf (s : State) (a : Word) : s.GateOf (s.strRead a).2 := by
  unfold State.strRead
  split
  · exact s.memRead_gateOf a
  · exact .refl s

/-! ## The flag updater (R74) and the write-back -/

/-- R74 in terms of the number: the sign of the value as a two's-complement number. -/
theorem condOf_eq_signOf (v : Word) : condOf v = signOf v := by
  have hmsb : v.getLsbD 15 = v.msb := (BitVec.msb_eq_getLsbD_last v).symm
  unfold condOf signOf
  rw [hmsb]
  by_cases h : v.msb
  · have : v.toInt < 0 := by
      rw [BitVec.msb_eq_toInt] at h
      simpa using h
    simp [h, this]
  · have h0 : ¬ v.toInt < 0 := by
      rw [BitVec.msb_eq_toInt] at h
      simpa using h
    have hz : v.toInt = 0 ↔ v = 0x0000 := by
      constructor
      · intro e; exact BitVec.eq_of_toInt_eq (by simpa using e)
      · intro e; subst e; rfl
    simp [h, h0, hz]

@[simp] theorem State.writeBack_eq (s : State) (dr : Reg) (v : Word) :
    s.writeBack dr v = (s.setReg dr v).setCond (signOf v) := by
  simp [State.writeBack, State.setcc, condOf_eq_signOf]

end Sys2Proof.Machine
end

