-- ==== Sys2Proof/Laws/Trap.lean ====
section
/-! SUPPORT. The walk of the string routines (R113, R115): what it changes, and that a gated walk ends. -/

namespace Sys2Proof.Machine

theorem State.outBytes_append (s : State) (bs cs : List Byte) : (s.outBytes bs).outBytes cs = s.outBytes (bs ++ cs) := by
  simp [State.outBytes]

/-- A gated change stays one beside an output. -/
theorem State.GateOf.outBytes {s t : State} (h : s.GateOf t) (bs : List Byte) : (s.outBytes bs).GateOf (t.outBytes bs) :=
  ⟨h.regs, h.pc, h.cond, h.run, h.phase, by simp [h.out], h.walk, h.schedule, h.cfg, h.kbd, h.word, h.wf⟩

theorem strWalk_succ (k : StrRoutine) (n : Nat) (a : Word) (s : State) :
    strWalk k (n + 1) a s = if (s.strRead a).1 = 0x0000 then ((s.strRead a).2, true)
      else strWalk k n (a + 1) ((s.strRead a).2.outBytes (strEmit k (s.strRead a).1)) := rfl

theorem strRoutine_eq (k : StrRoutine) (s : State) :
    strRoutine k s = { (strWalk k (walkBound s) (s.reg 0) s).1 with
      walk := if (strWalk k (walkBound s) (s.reg 0) s).2 then none else some k } := by
  unfold strRoutine
  dsimp only [State.outFlush_eq]
  split <;> rfl

/-- The walk emits bytes and changes at most what the gate writes. -/
theorem strWalk_gateOf (k : StrRoutine) (n : Nat) (a : Word) (s : State) :
    ∃ bs, (s.outBytes bs).GateOf (strWalk k n a s).1 := by
  induction n generalizing a s with
  | zero => exact ⟨[], by simpa [strWalk, State.outBytes] using State.GateOf.refl s⟩
  | succ n ih =>
    rw [strWalk_succ]
    split
    · exact ⟨[], by simpa [State.outBytes] using s.strRead_gateOf a⟩
    · obtain ⟨bs, h⟩ := ih (a + 1) ((s.strRead a).2.outBytes (strEmit k (s.strRead a).1))
      refine ⟨strEmit k (s.strRead a).1 ++ bs, ?_⟩
      rw [← State.outBytes_append]
      exact State.GateOf.trans (((s.strRead_gateOf a).outBytes _).outBytes bs) h

/-- A string read past the gate changes nothing. -/
theorem State.strRead_of_ungated {s : State} (h : s.cfg.trapReadsGated = false) (a : Word) :
    s.strRead a = (s.word a, s) := by
  simp [State.strRead, h]

/-- A string read through the gate. -/
theorem State.strRead_of_gated {s : State} (h : s.cfg.trapReadsGated = true) (a : Word) :
    s.strRead a = s.memRead a := by
  simp [State.strRead, h]

/-- A walk past the gate only emits. -/
theorem strWalk_of_ungated (k : StrRoutine) (n : Nat) (a : Word) {s : State} (h : s.cfg.trapReadsGated = false) :
    ∃ bs, (strWalk k n a s).1 = s.outBytes bs := by
  induction n generalizing a s with
  | zero => exact ⟨[], by simp [strWalk, State.outBytes]⟩
  | succ n ih =>
    rw [strWalk_succ]
    rw [State.strRead_of_ungated h]
    split
    · exact ⟨[], by simp [State.outBytes]⟩
    · obtain ⟨bs, e⟩ := ih (a + 1) (s := s.outBytes (strEmit k (s.word a))) h
      exact ⟨strEmit k (s.word a) ++ bs, by rw [e, State.outBytes_append]⟩

/-- How far an address is below `KBSR_ADDR`, going up and wrapping: one less after each step, unless it is there. -/
theorem distance_step {k a : Word} (h : a ≠ k) : (k - a).toNat = (k - (a + 1)).toNat + 1 := by
  bv_omega

theorem distance_wrap (k : Word) : (k - (k + 1)).toNat = 65535 := by
  bv_omega

/-- A gated walk with enough reads finds a zero word: each lap reads `KBSR_ADDR` once, and that read returns 0x0000 as
soon as nothing is pending. -/
theorem strWalk_gated_ends (k : StrRoutine) (n : Nat) (a : Word) (s : State) (hg : s.cfg.trapReadsGated = true)
    (hn : 65536 * s.kbd.length + (s.cfg.kbsrAddr - a).toNat < n) : (strWalk k n a s).2 = true := by
  induction n generalizing a s with
  | zero => omega
  | succ n ih =>
    rw [strWalk_succ]
    rw [State.strRead_of_gated hg]
    split
    · rfl
    · next hz =>
      by_cases ha : a = s.cfg.kbsrAddr
      · subst ha
        cases hk : s.kbd with
        | nil => exact absurd (by rw [State.memRead_kbsr_of_nil hk]) hz
        | cons c rest =>
          apply ih
          · rw [State.outBytes_cfg, (s.memRead_gateOf s.cfg.kbsrAddr).cfg, hg]
          · have hkbd : (s.memRead s.cfg.kbsrAddr).2.kbd = rest := by
              simp [State.memRead, State.gate, State.poll_of_cons hk]
            have hcfg := (s.memRead_gateOf s.cfg.kbsrAddr).cfg
            simp only [State.outBytes_kbd, State.outBytes_cfg, hkbd, hcfg]
            have := distance_wrap s.cfg.kbsrAddr
            simp only [hk, List.length_cons] at hn
            omega
      · rw [State.memRead_of_ne ha]
        apply ih
        · exact hg
        · simp only [State.outBytes_kbd, State.outBytes_cfg]
          have := distance_step ha
          omega

/-- The routine emits bytes, and changes at most what the gate writes and `walk`. -/
theorem strRoutine_gateOf (k : StrRoutine) (s : State) :
    ∃ bs, (({ s with walk := (strRoutine k s).walk } : State).outBytes bs).GateOf (strRoutine k s) := by
  obtain ⟨bs, h⟩ := strWalk_gateOf k (walkBound s) (s.reg 0) s
  rw [strRoutine_eq]
  exact ⟨bs, ⟨h.regs, h.pc, h.cond, h.run, h.phase, h.out, rfl, h.schedule, h.cfg, h.kbd, h.word, h.wf⟩⟩

/-- A gated routine always ends (R113, R115 with R120). -/
theorem strRoutine_walk_of_gated (k : StrRoutine) {s : State} (h : s.cfg.trapReadsGated = true) :
    (strRoutine k s).walk = none := by
  have hb := (s.cfg.kbsrAddr - s.reg 0).isLt
  have : (strWalk k (walkBound s) (s.reg 0) s).2 = true :=
    strWalk_gated_ends k _ _ s h (by unfold walkBound; omega)
  simp [strRoutine_eq, this]

/-- The routine past the gate only emits. -/
theorem strRoutine_of_ungated (k : StrRoutine) {s : State} (h : s.cfg.trapReadsGated = false) :
    ∃ bs, strRoutine k s = ({ s with walk := (strRoutine k s).walk } : State).outBytes bs := by
  obtain ⟨bs, e⟩ := strWalk_of_ungated k (walkBound s) (s.reg 0) h
  exact ⟨bs, by rw [strRoutine_eq, e]; rfl⟩

/-! ## What the walk emits -/

/-- The string read of the statements is the machine's. -/
theorem State.stringRead_eq (s : State) (a : Word) : s.stringRead a = s.strRead a := rfl

theorem State.memRead_outBytes (s : State) (bs : List Byte) (a : Word) :
    (s.outBytes bs).memRead a = ((s.memRead a).1, (s.memRead a).2.outBytes bs) := by
  have poll : (s.outBytes bs).poll = s.poll.outBytes bs := by
    cases h : s.kbd with
    | nil => rw [State.poll_of_nil h, State.poll_of_nil (s := s.outBytes bs) h]; rfl
    | cons c rest => rw [State.poll_of_cons h, State.poll_of_cons (s := s.outBytes bs) h]; rfl
  by_cases h : a = s.cfg.kbsrAddr
  · simp [State.memRead, State.gate, h, poll]
  · simp [State.memRead, State.gate, h]

/-- A string read does not look at the log. -/
theorem State.strRead_outBytes (s : State) (bs : List Byte) (a : Word) :
    (s.outBytes bs).strRead a = ((s.strRead a).1, (s.strRead a).2.outBytes bs) := by
  cases h : s.cfg.trapReadsGated with
  | false => rw [State.strRead_of_ungated h, State.strRead_of_ungated (s := s.outBytes bs) h]; rfl
  | true => rw [State.strRead_of_gated h, State.strRead_of_gated (s := s.outBytes bs) h, State.memRead_outBytes]

theorem State.afterReads_gateOf (s : State) (a : Word) (n : Nat) : s.GateOf (s.afterReads a n) := by
  induction n with
  | zero => exact .refl s
  | succ n ih => exact ih.trans (State.strRead_gateOf _ _)

/-- The walk over `n` words that are not zero: it emits them and goes on from there. -/
theorem strWalk_split (k : StrRoutine) (n m : Nat) (a : Word) (s : State) (hnz : ∀ j < n, s.readWord a j ≠ 0x0000) :
    strWalk k (n + m) a s = strWalk k m (a + BitVec.ofNat 16 n)
      ((s.afterReads a n).outBytes ((List.range n).flatMap fun j => strEmit k (s.readWord a j))) := by
  induction n generalizing m with
  | zero => simp [State.afterReads, State.outBytes]
  | succ n ih =>
    have hw : ((s.afterReads a n).strRead (a + BitVec.ofNat 16 n)).1 ≠ 0x0000 := hnz n (by omega)
    have hnext : a + BitVec.ofNat 16 n + 1 = a + BitVec.ofNat 16 (n + 1) := by
      rw [BitVec.add_assoc]; congr 1; apply BitVec.eq_of_toNat_eq; simp
    rw [show n + 1 + m = n + (m + 1) by omega, ih (m + 1) fun j hj => hnz j (by omega), strWalk_succ,
      State.strRead_outBytes, if_neg hw, State.outBytes_append, hnext]
    simp only [List.range_succ, List.flatMap_append, List.flatMap_singleton]
    rfl

/-- The walk that meets its zero word within its reads. -/
theorem strWalk_of_reads (k : StrRoutine) {n m : Nat} {a : Word} {s : State} (hm : n < m)
    (hnz : ∀ j < n, s.readWord a j ≠ 0x0000) (hz : s.readWord a n = 0x0000) : strWalk k m a s =
      ((s.afterReads a (n + 1)).outBytes ((List.range n).flatMap fun j => strEmit k (s.readWord a j)), true) := by
  obtain ⟨r, rfl⟩ : ∃ r, m = n + (r + 1) := ⟨m - n - 1, by omega⟩
  have hw : ((s.afterReads a n).strRead (a + BitVec.ofNat 16 n)).1 = 0x0000 := hz
  rw [strWalk_split k n (r + 1) a s hnz, strWalk_succ, State.strRead_outBytes, if_pos hw]
  rfl

/-- String reads of plain memory change nothing. -/
theorem State.afterReads_of_plain {s : State} {a : Word} {n : Nat}
    (hg : s.cfg.trapReadsGated = true → ∀ j < n, a + BitVec.ofNat 16 j ≠ s.cfg.kbsrAddr) : s.afterReads a n = s := by
  induction n with
  | zero => rfl
  | succ n ih =>
    simp only [State.afterReads, ih fun h j hj => hg h j (by omega), State.stringRead_eq]
    cases h : s.cfg.trapReadsGated with
    | false => rw [State.strRead_of_ungated h]
    | true => rw [State.strRead_of_gated h, State.memRead_of_ne (hg h n (by omega))]

/-- String reads of plain memory return its words. -/
theorem State.readWord_of_plain {s : State} {a : Word} {n : Nat}
    (hg : s.cfg.trapReadsGated = true → ∀ j ≤ n, a + BitVec.ofNat 16 j ≠ s.cfg.kbsrAddr) :
    s.readWord a n = s.word (a + BitVec.ofNat 16 n) := by
  unfold State.readWord
  rw [State.afterReads_of_plain fun h j hj => hg h j (by omega), State.stringRead_eq]
  cases h : s.cfg.trapReadsGated with
  | false => rw [State.strRead_of_ungated h]
  | true => rw [State.strRead_of_gated h, State.memRead_of_ne (hg h n (by omega))]

/-- The first zero word, however far it is, is met within the walk's bound. -/
theorem first_zero_lt_walkBound {s : State} {a : Word} {n : Nat} (hnz : ∀ j < n, s.readWord a j ≠ 0x0000)
    (hz : s.readWord a n = 0x0000) : n < walkBound s := by
  by_contra hn
  cases hg : s.cfg.trapReadsGated with
  | true =>
    have hb := (s.cfg.kbsrAddr - a).isLt
    have hend := strWalk_gated_ends .puts (walkBound s) a s hg (by unfold walkBound; omega)
    have hsplit := strWalk_split .puts (walkBound s) 0 a s fun j hj => hnz j (by omega)
    rw [Nat.add_zero] at hsplit
    rw [hsplit] at hend
    exact absurd hend (by simp [strWalk])
  | false =>
    have plain (j : Nat) : s.readWord a j = s.word (a + BitVec.ofNat 16 j) :=
      State.readWord_of_plain (by simp [hg])
    have hlap : 65536 ≤ n := by unfold walkBound at hn; omega
    have he : BitVec.ofNat 16 (n - 65536) = BitVec.ofNat 16 n := by
      apply BitVec.eq_of_toNat_eq; simp; omega
    exact hnz (n - 65536) (by omega) (by rw [plain, he, ← plain]; exact hz)

/-- The routine that meets a zero word. -/
theorem strRoutine_of_reads (k : StrRoutine) {n : Nat} {s : State} (hnz : ∀ j < n, s.readWord (s.reg 0) j ≠ 0x0000)
    (hz : s.readWord (s.reg 0) n = 0x0000) : strRoutine k s =
      { (s.afterReads (s.reg 0) (n + 1)).outBytes ((List.range n).flatMap fun j => strEmit k (s.readWord (s.reg 0) j)) with
        walk := none } := by
  rw [strRoutine_eq, strWalk_of_reads k (first_zero_lt_walkBound hnz hz) hnz hz]
  rfl

/-- The routine past the gate where no word is zero: whole laps, word after word, and it goes on. -/
theorem strRoutine_of_no_zero (k : StrRoutine) {s : State} (hg : s.cfg.trapReadsGated = false)
    (hw : ∀ a, s.word a ≠ 0x0000) : strRoutine k s =
      { s.outBytes ((List.range (walkBound s)).flatMap fun j => strEmit k (s.word (s.reg 0 + BitVec.ofNat 16 j))) with
        walk := some k } := by
  have plain (j : Nat) : s.readWord (s.reg 0) j = s.word (s.reg 0 + BitVec.ofNat 16 j) :=
    State.readWord_of_plain (by simp [hg])
  have hsplit := strWalk_split k (walkBound s) 0 (s.reg 0) s fun j _ => by rw [plain]; exact hw _
  rw [Nat.add_zero, State.afterReads_of_plain (by simp [hg])] at hsplit
  simp only [plain] at hsplit
  rw [strRoutine_eq, hsplit]
  rfl

end Sys2Proof.Machine
end

