-- ==== Sys2Proof/Laws/Exec.lean ====
section
/-! SUPPORT. What the operations the meanings share do, in the words of the frames. -/

namespace Sys2Proof.Machine

theorem RegsKept.setReg (s : State) (i : Reg) (v : Word) : RegsKept [i] s (s.setReg i v) :=
  fun _ h => State.reg_setReg_of_ne (by simpa using h) s v

/-- The write-back of a flag-updating instruction. -/
theorem writeBack_writesResult (dr : Reg) (v : Word) (s : State) : WritesResult dr v s (s.writeBack dr v) := by
  refine ⟨by simp, by simp, ?_, rfl, fun _ _ => rfl, ⟨rfl, rfl⟩, rfl, rfl, rfl, rfl, rfl⟩
  rw [State.writeBack_eq]
  exact RegsKept.setReg s dr v

/-- A load through the gate. -/
theorem loadTo_loadsResult (dr : Reg) (ea : Word) (s : State) : LoadsResult dr (s.memRead ea) s (s.loadTo dr ea) := by
  have g := s.memRead_gateOf ea
  obtain ⟨h1, h2, h3, h4, h5, h6, h7⟩ := writeBack_writesResult dr (s.memRead ea).1 (s.memRead ea).2
  exact ⟨h1, h2, fun r hr => (h3 r hr).trans (g.reg r), h4.trans g.pc, h5, h6.1, h6.2.trans g.out,
    h7.1.trans g.run, h7.2.1.trans g.phase, h7.2.2.1.trans g.walk, h7.2.2.2.1.trans g.schedule, h7.2.2.2.2.trans g.cfg⟩

/-- A load away from `KBSR_ADDR`. -/
theorem loadTo_writesResult (dr : Reg) {ea : Word} {s : State} (h : ea ≠ s.cfg.kbsrAddr) :
    WritesResult dr (s.word ea) s (s.loadTo dr ea) := by
  simp only [State.loadTo, State.memRead_of_ne h]
  exact writeBack_writesResult _ _ _

/-- A load changes, beside `dr` and COND, at most what the gate writes. -/
theorem loadTo_gateOf (dr : Reg) (ea : Word) (s : State) :
    (({ s with regs := (s.loadTo dr ea).regs, cond := (s.loadTo dr ea).cond } : State)).GateOf (s.loadTo dr ea) := by
  have g := s.memRead_gateOf ea
  exact ⟨rfl, g.pc, rfl, g.run, g.phase, g.out, g.walk, g.schedule, g.cfg, g.kbd, g.word, g.wf⟩

/-- A vector without a routine does nothing after trap entry. -/
theorem trapDispatch_of_noRoutine {v : BitVec 8} (h : vectorHasNoRoutine v = true) (s : State) :
    trapDispatch v s = s := by
  obtain ⟨h0, h1, h2, h3, h4, h5⟩ := (vectorHasNoRoutine_iff v).1 h
  simp [trapDispatch, h0, h1, h2, h3, h4, h5]

/-- The fields a string routine leaves alone, and what it may do to the others. -/
theorem strRoutine_keeps (k : StrRoutine) (s : State) :
    (strRoutine k s).run = s.run ∧ (strRoutine k s).phase = s.phase ∧ (strRoutine k s).pc = s.pc ∧
    (strRoutine k s).cond = s.cond ∧ (strRoutine k s).cfg = s.cfg ∧ (strRoutine k s).schedule = s.schedule ∧
    (∀ r, (strRoutine k s).reg r = s.reg r) ∧ (s.mem.wf = true → (strRoutine k s).mem.wf = true) ∧
    s.out <+: (strRoutine k s).out ∧ (strRoutine k s).kbd <:+ s.kbd := by
  obtain ⟨bs, g⟩ := strRoutine_gateOf k s
  exact ⟨g.run, g.phase, g.pc, g.cond, g.cfg, g.schedule, g.reg, g.wf, ⟨bs, g.out.symm⟩, g.kbd⟩

/-- A character's flag: it is never negative. -/
theorem signOf_char (c : Byte) : signOf (zext16 c) = if c = 0x00 then .zero else .pos := by
  have hi : (zext16 c).toInt = c.toNat := by
    have hc := c.isLt
    unfold zext16
    rw [BitVec.toInt_setWidth]
    simp [Int.bmod]
    omega
  have hz : c = 0x00 ↔ c.toNat = 0 := ⟨fun e => by simp [e], fun e => BitVec.eq_of_toNat_eq (by simpa using e)⟩
  unfold signOf
  simp only [hi, hz]
  rw [if_neg (by omega)]
  split <;> split <;> first | rfl | omega

theorem low_byte_eq (w : Word) : w.extractLsb' 0 8 = w.setWidth 8 := by
  apply BitVec.eq_of_toNat_eq; simp

theorem high_byte_eq (w : Word) : w.extractLsb' 8 8 = (w >>> 8).setWidth 8 := by
  apply BitVec.eq_of_toNat_eq; simp

/-- The bytes of the statements are those the routines emit. -/
theorem strEmit_puts : strEmit .puts = putsBytes := by
  funext w; simp [strEmit, putsBytes, low_byte_eq]

theorem strEmit_putsp : strEmit .putsp = putspBytes := by
  funext w
  simp only [strEmit, putspBytes, low_byte_eq, high_byte_eq]
  split <;> rfl

end Sys2Proof.Machine
end

