-- ==== Sys2Proof/Laws/Loader.lean ====
section
/-! SUPPORT. The image load: the words of an image, and what storing them does. -/

namespace Sys2Proof.Machine

/-- Storing words changes nothing but memory. -/
theorem State.storeWords_frame (ws : List Word) (a : Nat) (s : State) :
    State.storeWords ws a s = { s with mem := (State.storeWords ws a s).mem } := by
  induction ws generalizing a s with
  | nil => rfl
  | cons w ws ih =>
    unfold State.storeWords
    split
    · rw [ih]; rfl
    · rfl

theorem State.storeWords_wf (ws : List Word) (a : Nat) {s : State} (h : s.mem.wf = true) :
    (State.storeWords ws a s).mem.wf = true := by
  induction ws generalizing a s with
  | nil => exact h
  | cons w ws ih =>
    unfold State.storeWords
    split
    · exact ih _ (State.setWord_mem_wf h _ _)
    · exact h

/-- Every word after the store: the stored one in the range, the old one outside it. -/
theorem State.word_storeWords (ws : List Word) (a : Nat) (s : State) (b : Word) : (State.storeWords ws a s).word b =
    if h : a ≤ b.toNat ∧ b.toNat < a + ws.length then ws[b.toNat - a] else s.word b := by
  induction ws generalizing a s with
  | nil => simp [State.storeWords]
  | cons w ws ih =>
    have hb := b.isLt
    unfold State.storeWords
    split
    · have e : b = BitVec.ofNat 16 a ↔ b.toNat = a := by
        constructor
        · rintro rfl; simp; omega
        · intro h; apply BitVec.eq_of_toNat_eq; simp [h]; omega
      rw [ih, State.word_setWord]
      by_cases h1 : b.toNat = a
      · rw [dif_neg (by omega), dif_pos (by simp; omega), if_pos (e.2 h1)]
        simp [h1]
      · simp only [e, h1, if_false]
        by_cases h2 : a + 1 ≤ b.toNat ∧ b.toNat < a + 1 + ws.length
        · rw [dif_pos h2, dif_pos (by simp; omega), List.getElem_cons, dif_neg (by omega)]
          congr 1
        · rw [dif_neg h2, dif_neg (by simp; omega)]
    · rw [dif_neg (by omega)]

/-- The big-endian value of two bytes. -/
theorem toNat_append_bytes (hi lo : Byte) : (hi ++ lo : Word).toNat = 256 * hi.toNat + lo.toNat := by
  rw [BitVec.toNat_append, ← Nat.shiftLeft_add_eq_or_of_lt lo.isLt, Nat.shiftLeft_eq]
  omega

/-- The words of an image's bytes. -/
theorem imageWords_spec (bytes : List Byte) : (imageWords bytes).length = bytes.length / 2 ∧
    ∀ i, ∀ h : i < (imageWords bytes).length, (imageWords bytes)[i] =
      BitVec.ofNat 16 (256 * (bytes.getD (2 * i) 0).toNat + (bytes.getD (2 * i + 1) 0).toNat) := by
  induction bytes using imageWords.induct with
  | case1 hi lo rest ih =>
    refine ⟨by simp [imageWords, ih.1]; omega, fun i h => ?_⟩
    cases i with
    | zero =>
      have e := toNat_append_bytes hi lo
      have hh := hi.isLt
      have hl := lo.isLt
      apply BitVec.eq_of_toNat_eq
      simp only [imageWords, List.getElem_cons_zero, e]
      simp; omega
    | succ i =>
      have e := ih.2 i (by simp [imageWords] at h; omega)
      simp only [imageWords, List.getElem_cons_succ]
      rw [e]; congr 1
  | case2 b => simp [imageWords]
  | case3 => simp [imageWords]

end Sys2Proof.Machine
end

