-- ==== Sys2Proof/Laws/PerInstr.lean ====
section
/-! SUPPORT. The statements made of every instruction, one lemma a constructor. -/

namespace Sys2Proof.Laws.RowMatch

/-- The words of an instruction select the row of the opcode table it is listed under (spec/30_encoding.md, R57). -/
def Statement (i : Instr) : Prop := i.row.selects (encode i) = true

/-- Two masked words are equal when they agree at each of the sixteen bits. -/
theorem selects_of_bits {r : Row} {w : Word} (h : ∀ i < 16, (w &&& r.mask).getLsbD i = r.pattern.getLsbD i) :
    r.selects w = true := by
  simpa [Row.selects] using BitVec.eq_of_getLsbD_eq h

theorem br (cond : BitVec 3) (off : BitVec 9) : Statement (.br cond off) := by
  apply selects_of_bits
  intro i hi
  simp only [Instr.row, encode, BitVec.getLsbD_and, BitVec.getLsbD_append]
  interval_cases i <;> simp

theorem addReg (dr : Reg) (sr1 : Reg) (sr2 : Reg) : Statement (.addReg dr sr1 sr2) := by
  apply selects_of_bits
  intro i hi
  simp only [Instr.row, encode, BitVec.getLsbD_and, BitVec.getLsbD_append]
  interval_cases i <;> simp

theorem addImm (dr : Reg) (sr1 : Reg) (imm5 : BitVec 5) : Statement (.addImm dr sr1 imm5) := by
  apply selects_of_bits
  intro i hi
  simp only [Instr.row, encode, BitVec.getLsbD_and, BitVec.getLsbD_append]
  interval_cases i <;> simp

theorem ld (dr : Reg) (off : BitVec 9) : Statement (.ld dr off) := by
  apply selects_of_bits
  intro i hi
  simp only [Instr.row, encode, BitVec.getLsbD_and, BitVec.getLsbD_append]
  interval_cases i <;> simp

theorem st (sr : Reg) (off : BitVec 9) : Statement (.st sr off) := by
  apply selects_of_bits
  intro i hi
  simp only [Instr.row, encode, BitVec.getLsbD_and, BitVec.getLsbD_append]
  interval_cases i <;> simp

theorem jsr (off : BitVec 11) : Statement (.jsr off) := by
  apply selects_of_bits
  intro i hi
  simp only [Instr.row, encode, BitVec.getLsbD_and, BitVec.getLsbD_append]
  interval_cases i <;> simp

theorem jsrr (baseR : Reg) : Statement (.jsrr baseR) := by
  apply selects_of_bits
  intro i hi
  simp only [Instr.row, encode, BitVec.getLsbD_and, BitVec.getLsbD_append]
  interval_cases i <;> simp

theorem andReg (dr : Reg) (sr1 : Reg) (sr2 : Reg) : Statement (.andReg dr sr1 sr2) := by
  apply selects_of_bits
  intro i hi
  simp only [Instr.row, encode, BitVec.getLsbD_and, BitVec.getLsbD_append]
  interval_cases i <;> simp

theorem andImm (dr : Reg) (sr1 : Reg) (imm5 : BitVec 5) : Statement (.andImm dr sr1 imm5) := by
  apply selects_of_bits
  intro i hi
  simp only [Instr.row, encode, BitVec.getLsbD_and, BitVec.getLsbD_append]
  interval_cases i <;> simp

theorem ldr (dr : Reg) (baseR : Reg) (off : BitVec 6) : Statement (.ldr dr baseR off) := by
  apply selects_of_bits
  intro i hi
  simp only [Instr.row, encode, BitVec.getLsbD_and, BitVec.getLsbD_append]
  interval_cases i <;> simp

theorem str (sr : Reg) (baseR : Reg) (off : BitVec 6) : Statement (.str sr baseR off) := by
  apply selects_of_bits
  intro i hi
  simp only [Instr.row, encode, BitVec.getLsbD_and, BitVec.getLsbD_append]
  interval_cases i <;> simp

theorem rti : Statement .rti := by
  unfold Statement; decide

theorem notReg (dr : Reg) (sr : Reg) : Statement (.notReg dr sr) := by
  apply selects_of_bits
  intro i hi
  simp only [Instr.row, encode, BitVec.getLsbD_and, BitVec.getLsbD_append]
  interval_cases i <;> simp

theorem ldi (dr : Reg) (off : BitVec 9) : Statement (.ldi dr off) := by
  apply selects_of_bits
  intro i hi
  simp only [Instr.row, encode, BitVec.getLsbD_and, BitVec.getLsbD_append]
  interval_cases i <;> simp

theorem sti (sr : Reg) (off : BitVec 9) : Statement (.sti sr off) := by
  apply selects_of_bits
  intro i hi
  simp only [Instr.row, encode, BitVec.getLsbD_and, BitVec.getLsbD_append]
  interval_cases i <;> simp

theorem jmp (baseR : Reg) : Statement (.jmp baseR) := by
  apply selects_of_bits
  intro i hi
  simp only [Instr.row, encode, BitVec.getLsbD_and, BitVec.getLsbD_append]
  interval_cases i <;> simp

theorem res : Statement .res := by
  unfold Statement; decide

theorem lea (dr : Reg) (off : BitVec 9) : Statement (.lea dr off) := by
  apply selects_of_bits
  intro i hi
  simp only [Instr.row, encode, BitVec.getLsbD_and, BitVec.getLsbD_append]
  interval_cases i <;> simp

theorem trap (vector : BitVec 8) : Statement (.trap vector) := by
  apply selects_of_bits
  intro i hi
  simp only [Instr.row, encode, BitVec.getLsbD_and, BitVec.getLsbD_append]
  interval_cases i <;> simp

theorem getc : Statement .getc := by
  unfold Statement; decide

theorem out : Statement .out := by
  unfold Statement; decide

theorem puts : Statement .puts := by
  unfold Statement; decide

theorem inp : Statement .inp := by
  unfold Statement; decide

theorem putsp : Statement .putsp := by
  unfold Statement; decide

theorem halt : Statement .halt := by
  unfold Statement; decide

end Sys2Proof.Laws.RowMatch
end

