-- ==== Sys2Proof/Laws/Step.lean ====
section
/-! SUPPORT. What a step can do, once: every later proof about a step starts here. -/

namespace Sys2Proof.Machine

/-! ## The turn -/

theorem State.takeTurn_of_nil {s : State} (h : s.schedule = []) : s.takeTurn = s := by
  cases s; simp_all [State.takeTurn, State.setSchedule]

theorem State.takeTurn_of_cons {s : State} {x : Turn} {rest : List Turn} (h : s.schedule = x :: rest) :
    s.takeTurn = s.setSchedule rest := by
  simp [State.takeTurn, h]

/-! ## The hold (R73) -/

theorem State.holding_iff (s : State) : s.holding = true ↔ s.walk = none ∧ s.phase ≠ .none ∧ s.kbd = [] := by
  unfold State.holding
  split <;> simp_all [State.kbdReady]

theorem coreStep_of_holding {s : State} (h : s.holding = true) : coreStep s = .fault .hold := by
  obtain ⟨hw, hp, hk⟩ := s.holding_iff.1 h
  unfold coreStep
  cases hq : s.phase <;> simp_all

/-- The step of a CORE that is not in the hold: the laps of an endless string, a cycle, or the completion of a blocked
routine. -/
theorem coreStep_of_not_holding {s : State} (h : s.holding = false) :
    (∃ k, s.walk = some k ∧ coreStep s = .next (strRoutine k s)) ∨
    (s.walk = none ∧ s.phase = .none ∧ coreStep s = cycle s) ∨
    (∃ c rest, s.walk = none ∧ s.phase = .getcWait ∧ s.kbd = c :: rest ∧ coreStep s = .next (getcComplete c rest s)) ∨
    (∃ c rest, s.walk = none ∧ s.phase = .inWait ∧ s.kbd = c :: rest ∧ coreStep s = .next (inComplete c rest s)) := by
  have hn := s.holding_iff.not.1 (by simp [h])
  cases hw : s.walk with
  | some k => exact .inl ⟨k, rfl, by simp [coreStep, hw]⟩
  | none =>
    right
    cases hp : s.phase with
    | none => exact .inl ⟨rfl, rfl, by simp [coreStep, hw, hp]⟩
    | getcWait =>
      cases hk : s.kbd with
      | nil => exact absurd ⟨hw, by simp [hp], hk⟩ hn
      | cons c rest => exact .inr (.inl ⟨c, rest, rfl, rfl, rfl, by simp [coreStep, hw, hp, hk]⟩)
    | inWait =>
      cases hk : s.kbd with
      | nil => exact absurd ⟨hw, by simp [hp], hk⟩ hn
      | cons c rest => exact .inr (.inr ⟨c, rest, rfl, rfl, rfl, by simp [coreStep, hw, hp, hk]⟩)

/-! ## The step -/

/-- On the CORE's turn a running machine that is not in the hold takes the CORE's step. -/
theorem step_of_core_turn {s : State} (hr : s.run = .running) (ht : s.schedule = [] ∨ s.schedule.head? = some .core)
    (hh : s.holding = false) : step s = coreStep s.takeTurn := by
  cases hs : s.schedule with
  | nil => rw [State.takeTurn_of_nil hs]; simp [step, hr, runStep, hs]
  | cons x rest =>
    obtain rfl : x = .core := by simpa [hs] using ht
    rw [State.takeTurn_of_cons hs]; simp [step, hr, runStep, hs, hh]

/-- Everything a step that answers a next state can have been. -/
theorem step_cases {s t : State} (h : step s = .next t) : s.run = .running ∧
    ((∃ c rest, s.schedule = .key c :: rest ∧ t = (s.setSchedule rest).keyArrive c) ∨
     (∃ rest, s.schedule = .core :: rest ∧ s.holding = true ∧ t = s.setSchedule rest) ∨
     (∃ k, s.walk = some k ∧ t = strRoutine k s.takeTurn) ∨
     (s.cycleNext ∧ cycle s.takeTurn = .next t) ∨
     (∃ c rest, s.walk = none ∧ s.phase = .getcWait ∧ s.kbd = c :: rest ∧ t = getcComplete c rest s.takeTurn) ∨
     (∃ c rest, s.walk = none ∧ s.phase = .inWait ∧ s.kbd = c :: rest ∧ t = inComplete c rest s.takeTurn)) := by
  have hr : s.run = .running := by cases hr : s.run <;> simp [step, hr] at h; rfl
  refine ⟨hr, ?_⟩
  have core (ht : s.schedule = [] ∨ s.schedule.head? = some .core) (hh : s.holding = false) :
      (∃ k, s.walk = some k ∧ t = strRoutine k s.takeTurn) ∨
      (s.cycleNext ∧ cycle s.takeTurn = .next t) ∨
      (∃ c rest, s.walk = none ∧ s.phase = .getcWait ∧ s.kbd = c :: rest ∧ t = getcComplete c rest s.takeTurn) ∨
      (∃ c rest, s.walk = none ∧ s.phase = .inWait ∧ s.kbd = c :: rest ∧ t = inComplete c rest s.takeTurn) := by
    rw [step_of_core_turn hr ht hh] at h
    rcases coreStep_of_not_holding (s := s.takeTurn) hh with
      ⟨k, hk, e⟩ | ⟨hw, hp, e⟩ | ⟨c, rest, hw, hp, hk, e⟩ | ⟨c, rest, hw, hp, hk, e⟩
    · exact .inl ⟨k, hk, by rw [e] at h; exact (Host.Outcome.next.inj h).symm⟩
    · exact .inr (.inl ⟨⟨hr, hp, hw, ht⟩, by rw [← e]; exact h⟩)
    · exact .inr (.inr (.inl ⟨c, rest, hw, hp, hk, by rw [e] at h; exact (Host.Outcome.next.inj h).symm⟩))
    · exact .inr (.inr (.inr ⟨c, rest, hw, hp, hk, by rw [e] at h; exact (Host.Outcome.next.inj h).symm⟩))
  cases hs : s.schedule with
  | nil =>
    cases hh : s.holding with
    | true => simp [step, hr, runStep, hs, coreStep_of_holding hh] at h
    | false => exact .inr (.inr (by simpa [hs] using core (.inl hs) hh))
  | cons x rest =>
    cases x with
    | key c => exact .inl ⟨c, rest, rfl, by simpa [step, hr, runStep, hs] using h.symm⟩
    | core =>
      cases hh : s.holding with
      | true => exact .inr (.inl ⟨rest, rfl, rfl, by simpa [step, hr, runStep, hs, hh] using h.symm⟩)
      | false => exact .inr (.inr (core (.inr (by simp [hs])) hh))

/-! ## Runs -/

/-- A run whose first step answers a next state goes on from it. -/
theorem core_run_succ {n : Nat} {s t : State} (h : step s = .next t) :
    Sys2Proof.core.run (n + 1) s = Sys2Proof.core.run n t := by
  have general (M : Host.Core) (s t : M.State) (h : M.step s = .next t) : M.run (n + 1) s = M.run n t := by
    rw [Host.Core.run, h]
  exact general Sys2Proof.core s t h

end Sys2Proof.Machine
end

