-- ==== Sys2Proof/Tests/Slice0.lean ====
section
/-! SUPPORT. Tests with results from spec/95_test_vectors.md (named in each comment) or from a word written out by hand
from spec/30_encoding.md R52, and for every statement with hypotheses a witness that meets them. -/

namespace Sys2Proof.Tests

open Sys2Proof Sys2Proof.Machine

/-! ## Helpers -/

/-- The outcome is a next state with a property. -/
def after (r : Result) (p : State → Bool) : Bool :=
  match r with
  | .next t => p t
  | .fault _ => false
  | .refused _ => false

/-- The outcome is a fault of the given kind. -/
def faults (r : Result) (f : Fault) : Bool :=
  match r with
  | .next _ => false
  | .fault g => g == f
  | .refused _ => false

/-- Reset with one word at an address, and `pc` there. -/
def here (a w : Word) : State := (State.reset.setWord a w).setPc a

/-- Reset with characters pending. -/
def keys (bs : List Byte) (s : State) : State := { s with kbd := bs }

/-- With string reads past the gate. -/
def ungated (s : State) : State := { s with cfg := { s.cfg with trapReadsGated := false } }

/-! ## Well-formedness: the one check, at both ends of its range -/

theorem test_wf_refuses_20 : (Instr.trap 0x20).wf = false := by decide
theorem test_wf_refuses_25 : (Instr.trap 0x25).wf = false := by decide
theorem test_wf_takes_1F_26 : (Instr.trap 0x1F).wf = true ∧ (Instr.trap 0x26).wf = true := by decide

/-! ## Decoding: for every constructor a word written bit by bit from R52 -/

theorem test_decode_br : decode 0b0000_101_011111110#16 = .br 0b101 0x0FE := by decide
theorem test_decode_addReg : decode 0b0001_110_011_0_00_101#16 = .addReg 6 3 5 := by decide
theorem test_decode_addReg_ignored : decode 0b0001_001_001_0_11_001#16 = .addReg 1 1 1 := by decide -- V3.7
theorem test_decode_addImm : decode 0b0001_110_011_1_10101#16 = .addImm 6 3 0x15 := by decide
theorem test_decode_ld : decode 0b0010_110_100000001#16 = .ld 6 0x101 := by decide
theorem test_decode_st : decode 0b0011_011_010101010#16 = .st 3 0x0AA := by decide
theorem test_decode_jsr : decode 0b0100_1_10000000001#16 = .jsr 0x401 := by decide
theorem test_decode_jsrr : decode 0b0100_0_11_110_111111#16 = .jsrr 6 := by decide
theorem test_decode_andReg : decode 0b0101_110_011_0_00_101#16 = .andReg 6 3 5 := by decide
theorem test_decode_andImm : decode 0b0101_110_011_1_10101#16 = .andImm 6 3 0x15 := by decide
theorem test_decode_ldr : decode 0b0110_110_011_100001#16 = .ldr 6 3 0x21 := by decide
theorem test_decode_str : decode 0b0111_110_011_100001#16 = .str 6 3 0x21 := by decide
theorem test_decode_rti : decode 0b1000_101010101010#16 = .rti := by decide
theorem test_decode_not : decode 0b1001_110_011_111111#16 = .notReg 6 3 := by decide
theorem test_decode_not_ignored : decode 0b1001_110_011_000000#16 = .notReg 6 3 := by decide -- D4
theorem test_decode_ldi : decode 0b1010_110_100000001#16 = .ldi 6 0x101 := by decide
theorem test_decode_sti : decode 0b1011_011_010101010#16 = .sti 3 0x0AA := by decide
theorem test_decode_jmp : decode 0b1100_111_011_111111#16 = .jmp 3 := by decide
theorem test_decode_res : decode 0b1101_111010101101#16 = .res := by decide
theorem test_decode_lea : decode 0b1110_110_100000001#16 = .lea 6 0x101 := by decide
theorem test_decode_trap : decode 0b1111_0000_00011111#16 = .trap 0x1F := by decide
theorem test_decode_getc : decode 0b1111_0000_00100000#16 = .getc := by decide
theorem test_decode_out : decode 0b1111_0000_00100001#16 = .out := by decide
theorem test_decode_puts : decode 0b1111_0000_00100010#16 = .puts := by decide
theorem test_decode_in : decode 0b1111_0000_00100011#16 = .inp := by decide
theorem test_decode_putsp : decode 0b1111_0000_00100100#16 = .putsp := by decide
theorem test_decode_halt : decode 0b1111_1111_00100101#16 = .halt := by decide -- V6.24

/-- The table's numbering: one 16-bit word, bit 0 its least significant; what is no such word is no instruction. -/
theorem test_decodeTableWord : decodeTableWord 16 0x1025 = some (.addImm 0 0 5) ∧
    decodeTableWord 32 0x1025 = none ∧ decodeTableWord 16 0x11025 = none := by decide

/-! ## One step for each instruction (95_test_vectors.md section 2) -/

theorem test_add_wraps : after (step (((here 0x3000 0x1401).setReg 0 0xFFFF).setReg 1 0x0001)) -- V3.1
    (fun t => t.reg 2 == 0x0000 && t.cond == .zero && t.pc == 0x3001) = true := by decide
theorem test_add_signed_overflow : after (step (((here 0x3000 0x1401).setReg 0 0x7FFF).setReg 1 0x0001)) -- V3.2
    (fun t => t.reg 2 == 0x8000 && t.cond == .neg) = true := by decide
theorem test_add_imm_negative : after (step (here 0x3000 0x103F)) -- V3.4
    (fun t => t.reg 0 == 0xFFFF && t.cond == .neg && t.pc == 0x3001) = true := by decide
theorem test_add_imm_least : after (step ((here 0x3000 0x1030).setReg 0 0x0010)) -- V3.6
    (fun t => t.reg 0 == 0x0000 && t.cond == .zero) = true := by decide
theorem test_and_reg : after (step (((here 0x3000 0x5401).setReg 0 0xFF0F).setReg 1 0x0FF0)) -- V3.8
    (fun t => t.reg 2 == 0x0F00 && t.cond == .pos) = true := by decide
theorem test_and_imm_sign_extends : after (step ((here 0x3000 0x5730).setReg 4 0xABCD)) -- V3.11
    (fun t => t.reg 3 == 0xABC0 && t.cond == .neg) = true := by decide
theorem test_and_imm_positive : after (step ((here 0x3000 0x572F).setReg 4 0xABCD)) -- V3.12
    (fun t => t.reg 3 == 0x000D && t.cond == .pos) = true := by decide
theorem test_not : after (step ((here 0x3000 0x923F).setReg 0 0x00FF)) -- V3.15
    (fun t => t.reg 1 == 0xFF00 && t.cond == .neg) = true := by decide

theorem test_ld : after (step ((here 0x3002 0x2205).setWord 0x3008 0x8001)) -- V4.1
    (fun t => t.reg 1 == 0x8001 && t.cond == .neg && t.pc == 0x3003) = true := by decide
theorem test_ld_address_wraps : after (step ((here 0x0000 0x21FE).setWord 0xFFFF 0x7777)) -- V4.5
    (fun t => t.reg 0 == 0x7777 && t.cond == .pos && t.pc == 0x0001) = true := by decide
theorem test_st : after (step (((here 0x3000 0x33FE).setReg 1 0xBEEF).setCond .pos)) -- V4.6
    (fun t => t.word 0x2FFF == 0xBEEF && t.cond == .pos && t.pc == 0x3001) = true := by decide
theorem test_ldr_wraps : after (step (((here 0x3000 0x645F).setReg 1 0xFFF0).setWord 0x000F 0x9000)) -- V4.9
    (fun t => t.reg 2 == 0x9000 && t.cond == .neg) = true := by decide
theorem test_ldr_negative_offset : after (step (((here 0x3000 0x6460).setReg 1 0x0010).setWord 0xFFF0 0x0001)) -- V4.10
    (fun t => t.reg 2 == 0x0001 && t.cond == .pos) = true := by decide
theorem test_str : after (step (((here 0x3000 0x7443).setReg 1 0x4000).setReg 2 0x1234)) -- V4.11
    (fun t => t.word 0x4003 == 0x1234 && t.cond == .zero) = true := by decide
theorem test_ldi : after (step (((here 0x3000 0xA610).setWord 0x3011 0x5000).setWord 0x5000 0xFFFF)) -- V4.13
    (fun t => t.reg 3 == 0xFFFF && t.cond == .neg) = true := by decide
theorem test_ldi_pointer_is_gated : after (step (keys [0x41] ((here 0xFDFF 0xA000).setWord 0x8000 0x5555))) -- V8.4
    (fun t => t.reg 0 == 0x5555 && t.word 0xFE00 == 0x8000 && t.word 0xFE02 == 0x0041 && t.kbd == [] &&
      t.pc == 0xFE00) = true := by decide
theorem test_sti : after (step (((here 0x3000 0xB610).setReg 3 0x00AA).setWord 0x3011 0x5000)) -- V4.14
    (fun t => t.word 0x5000 == 0x00AA && t.word 0x3011 == 0x5000 && t.cond == .zero) = true := by decide
theorem test_sti_pointer_is_gated : after (step (keys [0x41] ((here 0xFDFF 0xB200).setReg 1 0xCAFE))) -- V8.6
    (fun t => t.word 0x8000 == 0xCAFE && t.word 0xFE00 == 0x8000 && t.word 0xFE02 == 0x0041 && t.kbd == []) = true := by
  decide
theorem test_lea_top : after (step (here 0xFFFF 0xE1FF)) -- V4.17
    (fun t => t.reg 0 == 0xFFFF && t.cond == .neg && t.pc == 0x0000) = true := by decide

theorem test_br_taken : after (step ((here 0x3005 0x03FD).setCond .pos)) (fun t => t.pc == 0x3003) = true := by -- V5.1
  decide
theorem test_br_not_taken : after (step (here 0x3005 0x03FD)) (fun t => t.pc == 0x3006) = true := by decide -- V5.2
theorem test_jmp_ignored_bits : after (step ((here 0x3000 0xCEFF).setReg 3 0x1234)) -- V5.8
    (fun t => t.pc == 0x1234 && t.cond == .zero) = true := by decide
theorem test_jsr_back : after (step (here 0x0100 0x4C00)) -- V5.10
    (fun t => t.reg 7 == 0x0101 && t.pc == 0xFD01) = true := by decide
theorem test_jsrr : after (step ((here 0x3000 0x46BF).setReg 2 0x5000)) -- V5.14
    (fun t => t.reg 7 == 0x3001 && t.pc == 0x5000) = true := by decide
theorem test_jsrr_r7 : after (step ((here 0x3000 0x41C0).setReg 7 0x5000)) -- V5.13
    (fun t => t.reg 7 == 0x3001 && t.pc == 0x3001) = true := by decide

theorem test_getc_begins : after (step (keys [0x61] (here 0x3000 0xF020))) -- V6.1
    (fun t => t.phase == .getcWait && t.reg 7 == 0x3001 && t.pc == 0x3001 && t.kbd == [0x61]) = true := by decide
theorem test_getc_completes : after (step { keys [0xFF] State.reset with phase := .getcWait }) -- V6.3
    (fun t => t.reg 0 == 0x00FF && t.cond == .pos && t.kbd == [] && t.phase == .none && t.out == []) = true := by decide
theorem test_out : after (step ((here 0x3000 0xF021).setReg 0 0x1241)) -- V6.5
    (fun t => t.out == [0x41] && t.reg 7 == 0x3001) = true := by decide
theorem test_puts : after (step ((((here 0x3000 0xF022).setReg 0 0x3005).setWord 0x3005 0x0048).setWord 0x3006 0x0049))
    (fun t => t.out == [0x48, 0x49] && t.reg 0 == 0x3005 && t.reg 7 == 0x3001) = true := by decide -- V6.7, S5
theorem test_puts_polls : after (step (keys [0x7A] (((((here 0x3000 0xF022).setReg 0 0xFDFF).setWord 0xFDFF 0x0041).setWord
    0xFE00 0x0043).setWord 0xFE01 0x0044))) -- V6.12
    (fun t => t.out == [0x41, 0x00, 0x44, 0x7A] && t.word 0xFE00 == 0x8000 && t.word 0xFE02 == 0x007A && t.kbd == [] &&
      t.walk == none) = true := by decide
theorem test_in_begins : after (step (here 0x3000 0xF023)) -- V6.15
    (fun t => t.out == defaultInPrompt && t.phase == .inWait && t.reg 7 == 0x3001) = true := by decide
theorem test_in_completes : after (step { keys [0x00] (State.reset.setReg 0 0x0055) with phase := .inWait }) -- V6.16
    (fun t => t.out == [0x00] && t.reg 0 == 0x0000 && t.cond == .zero && t.phase == .none) = true := by decide
theorem test_putsp : after (step ((((here 0x3000 0xF024).setReg 0 0x4000).setWord 0x4000 0x4948).setWord 0x4001 0x0021))
    (fun t => t.out == [0x48, 0x49, 0x21]) = true := by decide -- V6.17
theorem test_putsp_zero_low : after (step (((here 0x3000 0xF024).setReg 0 0x4000).setWord 0x4000 0x4100)) -- V6.18
    (fun t => t.out == [0x00, 0x41]) = true := by decide
theorem test_halt : after (step (here 0x3001 0xF025)) -- V6.20
    (fun t => t.run == .halted && t.reg 7 == 0x3002 && t.pc == 0x3002 && t.out == [0x48, 0x41, 0x4C, 0x54, 0x0A]) = true
    := by decide
theorem test_trap_no_routine : after (step ((here 0x3000 0xF0FF).setCond .neg)) -- V6.21
    (fun t => t == ((((here 0x3000 0xF0FF).setCond .neg).setReg 7 0x3001).setPc 0x3001)) = true := by decide
theorem test_rti : after (step (here 0x3000 0x8FFF)) (fun t => t == (here 0x3000 0x8FFF).setPc 0x3001) = true := by
  decide -- V7.2
theorem test_res : after (step (here 0x3000 0xDFFF)) (fun t => t == (here 0x3000 0xDFFF).setPc 0x3001) = true := by
  decide -- V7.4

/-! ## The gate, the cycle, the loader -/

theorem test_fetch_polls : after (step (keys [0x41] ((here 0xFE00 0xF025).setCond .neg))) -- V8.2
    (fun t => t.pc == 0xFE01 && t.word 0xFE00 == 0x8000 && t.word 0xFE02 == 0x0041 && t.kbd == [] && t.cond == .neg &&
      t.run == .running) = true := by decide
theorem test_fetch_polls_nothing : after (step (here 0xFE00 0xF025)) -- V8.1
    (fun t => t.pc == 0xFE01 && t.word 0xFE00 == 0x0000 && t.run == .running) = true := by decide
theorem test_store_does_not_poll : after (step (keys [0x41] ((here 0xFDFF 0x3200).setReg 1 0x00FF))) -- V8.7
    (fun t => t.word 0xFE00 == 0x00FF && t.kbd == [0x41] && t.pc == 0xFE00) = true := by decide
theorem test_zero_word_is_nop_and_pc_wraps : after (step (State.reset.setPc 0xFFFF)) -- V5.5
    (fun t => t == State.reset.setPc 0x0000) = true := by decide
theorem test_hold : faults (step { State.reset with phase := .getcWait }) .hold = true := by decide -- V6.4
theorem test_halted : faults (step { State.reset with run := .halted }) .halted = true := by decide -- V6.20
theorem test_load : loadImage [0x30, 0x00, 0x12, 0x34, 0x56] State.reset = .success (State.reset.setWord 0x3000 0x1234) :=
  by decide -- V9.5
theorem test_load_does_not_wrap : loadImage [0xFF, 0xFE, 0x00, 0x01, 0x00, 0x02, 0x00, 0x03] State.reset =
    .success ((State.reset.setWord 0xFFFE 0x0001).setWord 0xFFFF 0x0002) := by decide -- V9.6
theorem test_later_load_wins : loadImages [[0x30, 0x00, 0x11, 0x11, 0x22, 0x22, 0x33, 0x33], [0x30, 0x01, 0xAA, 0xAA]]
    State.reset = some (((State.reset.setWord 0x3000 0x1111).setWord 0x3001 0xAAAA).setWord 0x3002 0x3333) := by
  decide -- V9.9
theorem test_withFetchWord_after_reset : after (step (State.reset.withFetchWord 16 0x1025))
    (fun t => t.reg 0 == 0x0005 && t.cond == .pos && t.pc == 0x3001) = true := by decide -- S4
theorem test_withFetchWord_elsewhere :
    after (step ({ State.reset with pc := 0xFE00, schedule := [.key 0x41], run := .halted } : State)) (fun _ => true) =
      false ∧
    after (step (({ State.reset with pc := 0xFE00, schedule := [.key 0x41], run := .halted } : State).withFetchWord 16
      0x1025)) (fun t => t.reg 0 == 0x0005 && t.pc == 0xFE02 && t.schedule == [.key 0x41]) = true := by decide

/-! ## Witnesses: every statement's hypotheses, met together -/

/-- Memory with the word 1 at `n` addresses from `k` on. -/
def onesFrom : Nat → Nat → Memory
  | 0, _ => []
  | n + 1, k => (k, 0x0001) :: onesFrom n (k + 1)

theorem read_onesFrom (n k a : Nat) : (onesFrom n k).read a = if k ≤ a ∧ a < k + n then 0x0001 else 0x0000 := by
  induction n generalizing k with
  | zero => simp [onesFrom, Memory.read]
  | succ n ih =>
    simp only [onesFrom, Memory.read, ih]
    split_ifs <;> first | rfl | omega

/-- Reset with the first `n` words of memory at 1. -/
def filled (n : Nat) : State := { State.reset with mem := onesFrom n 0 }

theorem word_filled (n : Nat) (a : Word) : (filled n).word a = if a.toNat < n then 0x0001 else 0x0000 := by
  simp [filled, State.word, read_onesFrom]

theorem witness_SignExtension : sext (0x0F : BitVec 5) = 0x000F ∧ sext (0x10 : BitVec 5) = 0xFFF0 ∧
    sext (0x1F : BitVec 6) = 0x001F ∧ sext (0x20 : BitVec 6) = 0xFFE0 ∧ sext (0x0FF : BitVec 9) = 0x00FF ∧
    sext (0x100 : BitVec 9) = 0xFF00 ∧ sext (0x3FF : BitVec 11) = 0x03FF ∧ sext (0x400 : BitVec 11) = 0xFC00 ∧
    5 ∈ [5, 6, 9, 11] ∧ 11 ∈ [5, 6, 9, 11] := by decide -- 2.1

theorem witness_FlagUpdater : condOf 0x0000 = .zero ∧ condOf 0x0001 = .pos ∧ condOf 0x7FFF = .pos ∧
    condOf 0x8000 = .neg ∧ condOf 0xFFFF = .neg := by decide -- 2.2

theorem witness_CanonicalMemories :
    ((Memory.write [] 5 0x0002).write 3 0x0001).wf = true ∧ ((Memory.write [] 3 0x0001).write 5 0x0002).wf = true ∧
    (∀ a : Word, ((Memory.write [] 5 0x0002).write 3 0x0001).read a.toNat =
      ((Memory.write [] 3 0x0001).write 5 0x0002).read a.toNat) := by
  refine ⟨by decide, by decide, fun a => ?_⟩
  simp only [Memory.read_write]
  split_ifs <;> first | rfl | omega

/-- Every clause: nothing pending, a character pending, another address. -/
theorem witness_GatedRead : State.reset.cfg.kbsrAddr ≠ State.reset.cfg.kbdrAddr ∧ State.reset.kbd = [] ∧
    (keys [0x41, 0x42] State.reset).kbd = 0x41 :: [0x42] ∧ (0xFDFF : Word) ≠ State.reset.cfg.kbsrAddr ∧
    (0xFE00 : Word) = State.reset.cfg.kbsrAddr := by decide

theorem witness_Keystroke : (keys [0x41] State.reset).cfg.kbsrAddr ≠ (keys [0x41] State.reset).cfg.kbdrAddr ∧
    (keys [0x41] State.reset).kbd = [0x41] ∧ (keys [0x41, 0x42] State.reset).kbd = [0x41, 0x42] := by decide

/-- LD, LDR, LDI and STI away from `KBSR_ADDR`. -/
theorem witness_Loads : State.reset.pc + (5 : BitVec 9).signExtend 16 ≠ State.reset.cfg.kbsrAddr ∧
    State.reset.reg 1 + (5 : BitVec 6).signExtend 16 ≠ State.reset.cfg.kbsrAddr ∧
    State.reset.word (State.reset.pc + (5 : BitVec 9).signExtend 16) ≠ State.reset.cfg.kbsrAddr := by decide

/-- Each of the three ways to be taken, and not taken. -/
theorem witness_Branch : ((0b100 : BitVec 3).getLsbD 2 = true ∧ (State.reset.setCond .neg).cond = .neg) ∧
    ((0b010 : BitVec 3).getLsbD 1 = true ∧ State.reset.cond = .zero) ∧
    ((0b001 : BitVec 3).getLsbD 0 = true ∧ (State.reset.setCond .pos).cond = .pos) ∧
    condMatches 0b101 State.reset.cond = false := by decide

theorem witness_Trap : (0x1F : BitVec 8) < 0x20 ∧ (0x25 : BitVec 8) < 0x26 := by decide

/-- A blocked GETC or IN with a character pending and the CORE's turn, by either clause of the schedule. -/
def blocked (p : Phase) (ts : List Turn) : State := { keys [0x61, 0x62] State.reset with phase := p, schedule := ts }

theorem witness_Getc : (blocked .getcWait []).run = .running ∧ (blocked .getcWait []).walk = none ∧
    (blocked .getcWait []).phase = .getcWait ∧ (blocked .getcWait []).kbd = 0x61 :: [0x62] ∧
    (blocked .getcWait []).schedule = [] ∧ (blocked .getcWait [.core]).schedule.head? = some .core := by decide

theorem witness_In : (blocked .inWait []).run = .running ∧ (blocked .inWait []).walk = none ∧
    (blocked .inWait []).phase = .inWait ∧ (blocked .inWait []).kbd = 0x61 :: [0x62] ∧
    (blocked .inWait []).schedule = [] ∧ (blocked .inWait [.core]).schedule.head? = some .core := by decide

theorem witness_StringFrame : Instr.puts ∈ [Instr.puts, Instr.putsp] ∧ Instr.putsp ∈ [Instr.puts, Instr.putsp] ∧
    (ungated State.reset).cfg.trapReadsGated = false := by decide

/-- The string "HI" of S5, read through the gate. -/
def hiString : State := ((State.reset.setReg 0 0x3005).setWord 0x3005 0x0048).setWord 0x3006 0x0049

theorem witness_Strings : (2 : Nat) < 65536 ∧
    (∀ i < 2, hiString.word (hiString.reg 0 + BitVec.ofNat 16 i) ≠ 0x0000) ∧
    hiString.word (hiString.reg 0 + BitVec.ofNat 16 2) = 0x0000 ∧ hiString.cfg.trapReadsGated = true ∧
    (∀ i ≤ 2, hiString.reg 0 + BitVec.ofNat 16 i ≠ hiString.cfg.kbsrAddr) := by decide

/-- The string of V6.11 and V6.12, which reaches `KBSR_ADDR`. -/
def toStatus : State :=
  (((State.reset.setReg 0 0xFDFF).setWord 0xFDFF 0x0041).setWord 0xFE00 0x0043).setWord 0xFE01 0x0044

/-- A gated walk through `KBSR_ADDR`: the words read, with a key pending, up to the first zero. -/
theorem witness_GatedWalk : (∀ j < 4, (keys [0x7A] toStatus).readWord (toStatus.reg 0) j ≠ 0x0000) ∧
    (keys [0x7A] toStatus).readWord (toStatus.reg 0) 4 = 0x0000 ∧
    (keys [0x7A] toStatus).readBytes putsBytes 4 = [0x41, 0x00, 0x44, 0x7A] := by decide -- V6.12

/-- The clause of a string that reaches `KBSR_ADDR`, with nothing and with a key pending. -/
theorem witness_StringAtStatus : (1 : Nat) < 65536 ∧
    (∀ j < 1, toStatus.word (toStatus.reg 0 + BitVec.ofNat 16 j) ≠ 0x0000) ∧ toStatus.cfg.trapReadsGated = true ∧
    toStatus.reg 0 + BitVec.ofNat 16 1 = toStatus.cfg.kbsrAddr ∧ toStatus.kbd = [] ∧
    (keys [0x7A] toStatus).kbd = 0x7A :: [] ∧ toStatus.cfg.kbsrAddr ≠ toStatus.cfg.kbdrAddr := by decide

/-- The longest string there is, past the gate. -/
theorem witness_LongestString : (65535 : Nat) < 65536 ∧
    (∀ i < 65535, (ungated (filled 65535)).word ((ungated (filled 65535)).reg 0 + BitVec.ofNat 16 i) ≠ 0x0000) ∧
    (ungated (filled 65535)).word ((ungated (filled 65535)).reg 0 + BitVec.ofNat 16 65535) = 0x0000 ∧
    (ungated (filled 65535)).cfg.trapReadsGated = false := by
  have h0 : (ungated (filled 65535)).reg 0 = 0x0000 := by decide
  have hw (a : Word) : (ungated (filled 65535)).word a = (filled 65535).word a := rfl
  refine ⟨by decide, fun i hi => ?_, ?_, rfl⟩
  · have e : (BitVec.ofNat 16 i).toNat = i := by simp; omega
    rw [h0, hw, word_filled]
    simp [Nat.mod_eq_of_lt (show i < 65536 by omega), hi]
  · rw [h0, hw, word_filled]
    simp

theorem witness_GatedStrings : State.reset.cfg.trapReadsGated = true := by decide

theorem witness_UngatedEndless : (ungated (filled 65536)).run = .running ∧ (ungated (filled 65536)).schedule = [] ∧
    (ungated (filled 65536)).cfg.trapReadsGated = false ∧ (∀ a : Word, (ungated (filled 65536)).word a ≠ 0x0000) := by
  refine ⟨rfl, rfl, rfl, fun a => ?_⟩
  have hw : (ungated (filled 65536)).word a = (filled 65536).word a := rfl
  rw [hw, word_filled, if_pos a.isLt]
  decide

theorem witness_DecodeOfEncode : (Instr.trap 0x1F).wf = true ∧ (Instr.trap 0x26).wf = true ∧
    (Instr.addReg 7 0 7).wf = true ∧ decode (encode (.trap 0x26)) = .trap 0x26 := by decide

theorem witness_IgnoredBits : (0x9200 : Word) &&& (decode 0x9200).namedBits = 0x923F &&& (decode 0x9200).namedBits := by
  decide

/-- The CORE's turn by either clause of the schedule, and `pc` at and away from `KBSR_ADDR`. -/
theorem witness_StepExecutes : State.reset.cycleNext ∧ ({ State.reset with schedule := [.core] } : State).cycleNext ∧
    State.reset.pc ≠ State.reset.cfg.kbsrAddr ∧ (State.reset.setPc 0xFE00).cycleNext := by decide

theorem witness_ControlTransfers : after (exec (.jmp 3) (State.reset.setReg 3 0x4000)) (fun t => t.pc != 0x3000) = true ∧
    after (exec (.br 0b010 5) State.reset) (fun t => t.pc != 0x3000) = true ∧
    after (exec (.jsr 3) State.reset) (fun t => t.pc != 0x3000) = true ∧
    after (exec (.jsrr 2) State.reset) (fun t => t.pc != 0x3000) = true := by decide

theorem witness_StoredWord : (here 0x3000 0x3200).cycleNext ∧ (here 0x3000 0x3200).schedule = [] ∧
    (here 0x3000 0x3200).pc ≠ (here 0x3000 0x3200).cfg.kbsrAddr ∧
    (here 0x3000 0x3200).pc + 1 ≠ (here 0x3000 0x3200).cfg.kbsrAddr ∧
    decode ((here 0x3000 0x3200).word (here 0x3000 0x3200).pc) = .st 1 0 := by decide -- V10.5

/-- Each of the three cases of a step. -/
theorem witness_StepCases : after (step State.reset) (fun _ => true) = true ∧
    faults (step { State.reset with run := .halted }) .halted = true ∧
    faults (step { State.reset with phase := .inWait }) .hold = true := by decide

/-- A hold with each kind of turn to come. -/
def held (p : Phase) (ts : List Turn) : State := { State.reset with phase := p, schedule := ts }

theorem witness_Blocked : (held .getcWait []).run = .running ∧ (held .getcWait []).walk = none ∧
    (held .getcWait []).phase = .getcWait ∧ (held .inWait []).phase = .inWait ∧ (held .getcWait []).kbd = [] ∧
    (held .getcWait []).schedule = [] ∧ (held .inWait [.core, .core]).schedule = .core :: [.core] ∧
    (held .getcWait [.key 0x61]).schedule = .key 0x61 :: [] := by decide

theorem witness_KeyArrival : ({ State.reset with schedule := [.key 0x61] } : State).run = .running ∧
    ({ State.reset with schedule := [.key 0x61] } : State).schedule = .key 0x61 :: [] := by decide

theorem witness_RunEnds : (here 0x3000 0xF025).cycleNext ∧
    decode ((here 0x3000 0xF025).takeTurn.memRead (here 0x3000 0xF025).pc).1 = .halt ∧
    ∃ t, step (here 0x3000 0xF025) = .next t ∧ t.isFinal := by
  refine ⟨by decide, by decide, _, rfl, rfl⟩

/-- A step that is no cycle: the end of a wait, and one that leaves COND alone. -/
theorem witness_CondWritten :
    ((∃ t, step (blocked .getcWait []) = .next t ∧ t.phase = .none) ∧ ¬ (blocked .getcWait []).cycleNext) ∧
    ((∃ t, step (held .inWait [.core]) = .next t ∧ t.phase = .inWait) ∧ ¬ (held .inWait [.core]).cycleNext) := by
  refine ⟨⟨⟨_, rfl, rfl⟩, by decide⟩, ⟨⟨_, rfl, rfl⟩, by decide⟩⟩

theorem witness_CondRead : (∀ mask off, Instr.addReg 0 1 2 ≠ .br mask off) ∧
    ∃ t, exec (.addReg 0 1 2) State.reset = .next t :=
  ⟨fun _ _ h => (nomatch h), _, rfl⟩

/-- Every arm of the frames over all instructions has a next state; TRAP with a vector that has no routine. -/
theorem witness_Frames : (∃ t, exec (.sti 3 16) State.reset = .next t) ∧ (∃ t, exec (.lea 0 4) State.reset = .next t) ∧
    (∃ t, exec (.trap 0x26) State.reset = .next t) ∧ vectorHasNoRoutine 0x1F = true ∧ vectorHasNoRoutine 0x26 = true :=
  ⟨⟨_, rfl⟩, ⟨_, rfl⟩, ⟨_, rfl⟩, by decide, by decide⟩

/-- A step that takes from the head of the queue, and one that adds at its tail. -/
theorem witness_Console : (∃ t, step (blocked .getcWait []) = .next t ∧ t.kbd = [0x62]) ∧
    ∃ t, step { State.reset with schedule := [.key 0x61] } = .next t ∧ t.kbd = [0x61] :=
  ⟨⟨_, rfl, rfl⟩, ⟨_, rfl, rfl⟩⟩

/-- States of the invariant in a cycle, in a wait and at the end of a run. -/
theorem witness_Invariant : State.reset.Inv ∧ (∃ t, step State.reset = .next t) ∧
    (((blocked .getcWait []).setReg 7 0x3000).Inv ∧ ∃ t, step ((blocked .getcWait []).setReg 7 0x3000) = .next t) ∧
    ∃ t, step (here 0x3000 0xF025) = .next t ∧ t.Inv ∧ t.run = .halted := by
  refine ⟨by decide, ⟨_, rfl⟩, ⟨by decide, _, rfl⟩, _, rfl, by decide, rfl⟩

/-- A string routine that never ends, in a state of the invariant. -/
theorem witness_InvariantEndless :
    ({ ungated (State.reset.setReg 7 0x3000) with walk := some .puts } : State).Inv := by decide

/-- Two images of which the second covers one word of the first: that word, a word it leaves and one no image has. -/
theorem witness_Launch :
    (∃ s, boot ([] ++ [0x30, 0x00, 0x11, 0x11, 0x22, 0x22] :: [[0x30, 0x01, 0xAA, 0xAA]]) = some s ∧
      s.word 0x3000 = 0x1111 ∧ s.word 0x3001 = 0xAAAA ∧ s.word 0x3002 = 0x0000) ∧
    (0 < imageCount [0x30, 0x00, 0x11, 0x11, 0x22, 0x22] ∧ ¬ inImage [0x30, 0x01, 0xAA, 0xAA] 0x3000) ∧
    (¬ inImage [0x30, 0x00, 0x11, 0x11, 0x22, 0x22] 0x3002 ∧ ¬ inImage [0x30, 0x01, 0xAA, 0xAA] 0x3002) ∧
    boot [[0x30]] = none ∧ (∃ bytes ∈ [[(0x30 : Byte)]], bytes.length < 2) := by
  refine ⟨⟨_, rfl, by decide, by decide, by decide⟩, ⟨by decide, ?_⟩, ⟨?_, ?_⟩, rfl, by decide⟩ <;>
    unfold inImage <;> decide

/-- A load too short, one of an origin alone, one that is cut at the top of memory. -/
theorem witness_Load : ([0x30] : List Byte).length < 2 ∧ 2 ≤ ([0x30, 0x00] : List Byte).length ∧
    imageCount [0x30, 0x00] = 0 ∧ imageCount [0xFF, 0xFF, 0x00, 0x01, 0x00, 0x02] = 1 ∧
    imageOrigin [0xFF, 0xFF, 0x00, 0x01, 0x00, 0x02] = 0xFFFF ∧
    ¬ inImage [0xFF, 0xFF, 0x00, 0x01, 0x00, 0x02] 0x0000 ∧ inImage [0xFF, 0xFF, 0x00, 0x01, 0x00, 0x02] 0xFFFF := by
  refine ⟨by decide, by decide, by decide, by decide, by decide, ?_, ?_⟩ <;> unfold inImage <;> decide

/-- Two images that overlap in one word of three. -/
theorem witness_TwoImages : 2 ≤ ([0x30, 0x00, 0x11, 0x11, 0x22, 0x22, 0x33, 0x33] : List Byte).length ∧
    2 ≤ ([0x30, 0x01, 0xAA, 0xAA] : List Byte).length ∧ 1 < imageCount [0x30, 0x00, 0x11, 0x11, 0x22, 0x22, 0x33, 0x33] ∧
    inImage [0x30, 0x01, 0xAA, 0xAA] 0x3001 ∧ ¬ inImage [0x30, 0x01, 0xAA, 0xAA] 0x3000 := by
  refine ⟨by decide, by decide, by decide, ?_, ?_⟩ <;> unfold inImage <;> decide

end Sys2Proof.Tests
end

section
/-! PROOFS of the primitives: sign extension (R1), by the library's `signExtend` at every field width up to 16. -/

namespace Sys2Proof.Machine

theorem sext_toInt {n : Nat} (hn : n ≤ 16) (v : BitVec n) : (sext v).toInt = v.toInt :=
  BitVec.toInt_signExtend_of_le hn

theorem sext_toNat {n : Nat} (hn : n ≤ 16) (v : BitVec n) :
    (sext v).toNat = if v.getLsbD (n - 1) then v.toNat + (2 ^ 16 - 2 ^ n) else v.toNat := by
  have hv : v.toNat < 2 ^ 16 := v.isLt.trans_le (Nat.pow_le_pow_right (by decide) hn)
  rw [sext, BitVec.toNat_signExtend, BitVec.msb_eq_getLsbD_last, BitVec.toNat_setWidth, Nat.mod_eq_of_lt hv]
  split <;> rfl

/-- Settles O1: each of the four widths is at most 16, so the extension keeps the signed value, and with it the range
of an n-bit two's-complement number. -/
theorem signExtensionKeepsTheSignedValue : Obligations.SignExtensionKeepsTheSignedValue := by
  intro n hn v
  have hle : n ≤ 16 := (by decide : ∀ n ∈ [5, 6, 9, 11], n ≤ 16) n hn
  rw [sext_toInt hle]
  exact ⟨sext_toNat hle v, rfl, v.le_toInt, Int.le_sub_one_of_lt v.toInt_lt⟩

end Sys2Proof.Machine
end

section
/-! PROOFS. What an instruction, the trap dispatcher and a cycle can do, once for all instructions: the proofs about
every instruction and every step start here. -/

namespace Sys2Proof

/-- Where an instruction's own cycle may write a register (R11): a result in `dr`, the incremented PC in R7, or nowhere. -/
inductive Destination where
  | result (dr : Reg)
  | link
  | none

def Instr.destination : Instr → Destination
  | .addReg dr _ _ | .addImm dr _ _ | .andReg dr _ _ | .andImm dr _ _ | .notReg dr _ => .result dr
  | .ld dr _ | .ldi dr _ | .ldr dr _ _ | .lea dr _ => .result dr
  | .jsr _ | .jsrr _ | .trap _ | .getc | .out | .puts | .inp | .putsp | .halt => .link
  | .br _ _ | .st _ _ | .str _ _ _ | .rti | .sti _ _ | .jmp _ | .res => .none

/-- The four control transfers, which alone write `pc` after the fetch (R12, R13). -/
def Instr.IsControlTransfer (i : Instr) : Prop :=
  (∃ mask off, i = .br mask off) ∨ (∃ baseR, i = .jmp baseR) ∨ (∃ off, i = .jsr off) ∨ (∃ baseR, i = .jsrr baseR)

end Sys2Proof

namespace Sys2Proof.Machine

/-- What a trap's routine can make of the state after trap entry. -/
inductive Dispatched (s : State) : State → Prop
  | nothing : Dispatched s s
  | getc : Dispatched s (getcBegin s)
  | out : Dispatched s (outChar s)
  | string (k : StrRoutine) : Dispatched s (strRoutine k s)
  | inp : Dispatched s (inBegin s)
  | halt : Dispatched s (haltRun s)

theorem trapDispatch_dispatched (vector : BitVec 8) (s : State) : Dispatched s (trapDispatch vector s) := by
  unfold trapDispatch
  split_ifs
  · exact .getc
  · exact .out
  · exact .string .puts
  · exact .inp
  · exact .string .putsp
  · exact .halt
  · exact .nothing

/-- What an instruction can make of the state after the fetch: a write-back over what its reads leave, a store over what
its read leaves, a jump, a call, nothing, or trap entry and a routine. -/
inductive Effect (i : Instr) (s : State) : State → Prop
  | writeBack {u : State} (dr : Reg) (v : Word) (hi : i.destination = .result dr) (hu : s.GateOf u) :
      Effect i s (u.writeBack dr v)
  | store {u : State} (a v : Word) (hi : i.destination = .none) (hu : s.GateOf u) : Effect i s (u.memWrite a v)
  | jump (target : Word) (hi : i.destination = .none) (hc : i.IsControlTransfer) : Effect i s (s.setPc target)
  | call (target : Word) (hi : i.destination = .link) (hc : i.IsControlTransfer) : Effect i s (s.link.setPc target)
  | nothing (hi : i.destination = .none) : Effect i s s
  | trap {u : State} (hi : i.destination = .link) (hu : Dispatched s.trapEntry u) : Effect i s u

theorem exec_eq_next (i : Instr) (s : State) : ∃ t, exec i s = .next t ∧ Effect i s t := by
  cases i with
  | addReg dr _ _ | addImm dr _ _ | andReg dr _ _ | andImm dr _ _ | notReg dr _ | lea dr _ =>
    exact ⟨_, rfl, .writeBack dr _ rfl (.refl s)⟩
  | ld dr _ | ldr dr _ _ => exact ⟨_, rfl, .writeBack dr _ rfl (s.memRead_gateOf _)⟩
  | ldi dr _ => exact ⟨_, rfl, .writeBack dr _ rfl ((s.memRead_gateOf _).trans (State.memRead_gateOf _ _))⟩
  | st _ _ | str _ _ _ => exact ⟨_, rfl, .store _ _ rfl (.refl s)⟩
  | sti _ _ => exact ⟨_, rfl, .store _ _ rfl (s.memRead_gateOf _)⟩
  | br mask off =>
    refine ⟨_, rfl, ?_⟩
    split
    · exact .jump _ rfl (.inl ⟨mask, off, rfl⟩)
    · exact .nothing rfl
  | jmp baseR => exact ⟨_, rfl, .jump _ rfl (.inr (.inl ⟨baseR, rfl⟩))⟩
  | jsr off => exact ⟨_, rfl, .call _ rfl (.inr (.inr (.inl ⟨off, rfl⟩)))⟩
  | jsrr baseR => exact ⟨_, rfl, .call _ rfl (.inr (.inr (.inr ⟨baseR, rfl⟩)))⟩
  | rti | res => exact ⟨_, rfl, .nothing rfl⟩
  | trap vector => exact ⟨_, rfl, .trap rfl (trapDispatch_dispatched vector _)⟩
  | getc => exact ⟨_, rfl, .trap rfl .getc⟩
  | out => exact ⟨_, rfl, .trap rfl .out⟩
  | puts => exact ⟨_, rfl, .trap rfl (.string .puts)⟩
  | inp => exact ⟨_, rfl, .trap rfl .inp⟩
  | putsp => exact ⟨_, rfl, .trap rfl (.string .putsp)⟩
  | halt => exact ⟨_, rfl, .trap rfl .halt⟩

theorem exec_effect {i : Instr} {s t : State} (h : exec i s = .next t) : Effect i s t := by
  obtain ⟨u, hu, e⟩ := exec_eq_next i s
  obtain rfl : u = t := Host.Outcome.next.inj (hu.symm.trans h)
  exact e

/-- A cycle is an instruction over what the fetch leaves (R71). -/
theorem cycle_effect {s t : State} (h : cycle s = .next t) :
    ∃ i u, s.GateOf u ∧ Effect i (u.setPc (u.pc + 1)) t :=
  ⟨_, _, s.memRead_gateOf s.pc, exec_effect h⟩

end Sys2Proof.Machine
end

section
/-! PROOFS of the invariant of every run: a step's cases each meet it, by the one description of an instruction. -/

namespace Sys2Proof.Machine

/-- The CORE is at work on an instruction, in no wait, in a state of the invariant. -/
def State.Working (s : State) : Prop :=
  s.mem.wf = true ∧ s.cfg.kbsrAddr ≠ s.cfg.kbdrAddr ∧ s.run = .running ∧ s.phase = .none

theorem State.Working.of_gateOf {s t : State} (h : s.Working) (g : s.GateOf t) : t.Working := by
  obtain ⟨hmem, hcfg, hrun, hphase⟩ := h
  exact ⟨g.wf hmem, by rwa [g.cfg], g.run.trans hrun, g.phase.trans hphase⟩

/-- With no string under way such a state meets the invariant: none of its last three clauses applies. -/
theorem State.Working.inv {s : State} (h : s.Working) (hw : s.walk = none) : s.Inv := by
  obtain ⟨hmem, hcfg, hrun, hphase⟩ := h
  exact ⟨hmem, hcfg, fun hp => absurd hphase hp, fun hk => absurd hw hk, fun hh => by simp [hrun] at hh⟩

/-- A string routine that stands at its TRAP ends, or goes on past the gate. -/
theorem State.Working.inv_strRoutine {s : State} (h : s.Working) (hat : s.atTrap) (k : StrRoutine) :
    (strRoutine k s).Inv := by
  obtain ⟨hmem, hcfg, hrun, hphase⟩ := h
  obtain ⟨erun, ephase, epc, -, ecfg, -, ereg, hwf, -, -⟩ := strRoutine_keeps k s
  have hungated (hk : (strRoutine k s).walk ≠ none) : s.cfg.trapReadsGated = false :=
    Bool.eq_false_iff.2 fun hg => hk (strRoutine_walk_of_gated k hg)
  have hat' : (strRoutine k s).atTrap := (ereg 7).trans (hat.trans epc.symm)
  refine ⟨hwf hmem, by rwa [ecfg], fun _ => hat', fun hk => ⟨hat', ephase.trans hphase, erun.trans hrun, ?_⟩, fun hh => ?_⟩
  · rw [ecfg]; exact hungated hk
  · rw [erun, hrun] at hh; cases hh

theorem Dispatched.inv {s t : State} (e : Dispatched s t) (h : s.Working) (hw : s.walk = none) (hat : s.atTrap) :
    t.Inv := by
  have ⟨hmem, hcfg, hrun, hphase⟩ := h
  cases e with
  | nothing => exact h.inv hw
  | out => exact State.Working.inv (s := outChar s) h hw
  | string k => exact h.inv_strRoutine hat k
  | getc | inp => exact ⟨hmem, hcfg, fun _ => hat, fun hk => absurd hw hk, fun hh => by cases hrun.symm.trans hh⟩
  | halt =>
    exact ⟨hmem, hcfg, fun _ => hat, fun hk => absurd hw hk, fun _ => ⟨hat, hphase, List.suffix_append _ _⟩⟩

theorem Effect.inv {i : Instr} {s t : State} (e : Effect i s t) (h : s.Working) (hw : s.walk = none) : t.Inv := by
  cases e with
  | writeBack dr v _ g =>
    have hu := h.of_gateOf g
    exact State.Working.inv hu (g.walk.trans hw)
  | store a v _ g =>
    obtain ⟨hmem, hrest⟩ := h.of_gateOf g
    exact State.Working.inv ⟨State.setWord_mem_wf hmem a v, hrest⟩ (g.walk.trans hw)
  | jump target => exact State.Working.inv (s := s.setPc target) h hw
  | call target => exact State.Working.inv (s := s.link.setPc target) h hw
  | nothing => exact h.inv hw
  | trap _ e => exact e.inv h hw (State.reg_setReg_self s 7 s.pc)

/-- Settles O54: a cycle by what an instruction can do; a keystroke and a core turn in the hold touch no field the
invariant speaks of; the other steps are the laps of a string routine and the end of a wait. -/
theorem everyStepKeepsTheInvariant : Obligations.EveryStepKeepsTheInvariant := by
  intro s t hs h
  have ⟨hmem, hcfg, _, hwalk, _⟩ := hs
  obtain ⟨hrun, ⟨c, rest, -, rfl⟩ | ⟨rest, -, -, rfl⟩ | ⟨k, hk, rfl⟩ | ⟨⟨-, hphase, hw, -⟩, hc⟩ |
    ⟨c, rest, hw, -, -, rfl⟩ | ⟨c, rest, hw, -, -, rfl⟩⟩ := step_cases h
  · exact hs
  · exact hs
  · obtain ⟨hat, hphase, -, -⟩ := hwalk (by simp [hk])
    exact State.Working.inv_strRoutine (s := s.takeTurn) ⟨hmem, hcfg, hrun, hphase⟩ hat k
  · obtain ⟨i, u, g, e⟩ := cycle_effect hc
    have hu : u.Working := State.Working.of_gateOf (s := s.takeTurn) ⟨hmem, hcfg, hrun, hphase⟩ g
    exact e.inv hu (g.walk.trans hw)
  · exact State.Working.inv (s := getcComplete c rest s.takeTurn) ⟨hmem, hcfg, hrun, rfl⟩ hw
  · exact State.Working.inv (s := inComplete c rest s.takeTurn) ⟨hmem, hcfg, hrun, rfl⟩ hw

/-- Settles O55: reset has an empty memory, the two default addresses, and neither a wait, a string nor an end. -/
theorem resetMeetsTheInvariant : Obligations.ResetMeetsTheInvariant :=
  State.Working.inv ⟨rfl, by decide, rfl, rfl⟩ rfl

end Sys2Proof.Machine
end

section
/-! PROOFS of the canonical memory (assumption 1), the registers (R10) and the state after reset (R22, R23). -/

namespace Sys2Proof.Machine

/-! ## The canonical form -/

theorem Memory.wfFrom_cons {lo k : Nat} {v : Word} {rest : Memory} :
    Memory.wfFrom lo ((k, v) :: rest) = true ↔
      lo ≤ k ∧ k < 65536 ∧ v ≠ 0x0000 ∧ Memory.wfFrom (k + 1) rest = true := by
  simp [Memory.wfFrom, and_assoc]

/-- Below its first address a canonical memory reads as 0x0000. -/
theorem Memory.read_of_lt {lo a : Nat} {m : Memory} (hm : Memory.wfFrom lo m = true) (ha : a < lo) :
    m.read a = 0x0000 := by
  induction m generalizing lo with
  | nil => rfl
  | cons e rest ih =>
    obtain ⟨k, v⟩ := e
    obtain ⟨hlo, -, -, hrest⟩ := Memory.wfFrom_cons.1 hm
    rw [Memory.read, if_neg (by omega)]
    exact ih hrest (by omega)

@[simp] theorem Memory.read_cons_self (k : Nat) (v : Word) (rest : Memory) : Memory.read ((k, v) :: rest) k = v :=
  if_pos rfl

theorem Memory.read_cons_of_ne {k a : Nat} (h : k ≠ a) (v : Word) (rest : Memory) :
    Memory.read ((k, v) :: rest) a = rest.read a :=
  if_neg h

/-- A canonical memory that reads like another has no entry below it: its first word would not be 0x0000. -/
theorem Memory.le_head_of_read_eq {lo lo' k : Nat} {v : Word} {rest m : Memory}
    (hm : Memory.wfFrom lo' ((k, v) :: rest) = true) (hm' : Memory.wfFrom lo m = true)
    (h : ∀ a < 65536, Memory.read ((k, v) :: rest) a = m.read a) : lo ≤ k := by
  obtain ⟨-, hk, hv, -⟩ := Memory.wfFrom_cons.1 hm
  by_contra hlt
  have e := h k hk
  rw [Memory.read_cons_self, Memory.read_of_lt hm' (by omega)] at e
  exact hv e

/-- Memories that read alike begin with the same entry, and behind it they read alike again. -/
theorem Memory.eq_of_read_eq {lo lo' : Nat} {m m' : Memory} (hm : Memory.wfFrom lo m = true)
    (hm' : Memory.wfFrom lo' m' = true) (h : ∀ a < 65536, m.read a = m'.read a) : m = m' := by
  induction m generalizing lo lo' m' with
  | nil =>
    cases m' with
    | nil => rfl
    | cons e' rest' =>
      have := Memory.le_head_of_read_eq (lo := e'.1 + 1) (m := []) hm' rfl fun a ha => (h a ha).symm
      omega
  | cons e rest ih =>
    obtain ⟨k, v⟩ := e
    obtain ⟨-, hk, hv, hrest⟩ := Memory.wfFrom_cons.1 hm
    cases m' with
    | nil =>
      have := Memory.le_head_of_read_eq (lo := k + 1) (m := []) hm rfl h
      omega
    | cons e' rest' =>
      obtain ⟨k', v'⟩ := e'
      obtain ⟨-, hk', hv', hrest'⟩ := Memory.wfFrom_cons.1 hm'
      have hle : k' ≤ k := Memory.le_head_of_read_eq hm (Memory.wfFrom_cons.2 ⟨le_rfl, hk', hv', hrest'⟩) h
      have hge : k ≤ k' :=
        Memory.le_head_of_read_eq hm' (Memory.wfFrom_cons.2 ⟨le_rfl, hk, hv, hrest⟩) fun a ha => (h a ha).symm
      obtain rfl : k = k' := Nat.le_antisymm hge hle
      obtain rfl : v = v' := by simpa using h k hk
      congr 1
      refine ih hrest hrest' fun a ha => ?_
      by_cases hka : k = a
      · rw [Memory.read_of_lt hrest (by omega), Memory.read_of_lt hrest' (by omega)]
      · simpa only [Memory.read_cons_of_ne hka] using h a ha

/-- Settles O5: extensionality for the addresses a word can name, which are all of them, and the law of the write. -/
theorem canonicalMemoriesThatReadAlikeAreEqual : Obligations.CanonicalMemoriesThatReadAlikeAreEqual :=
  ⟨fun _ _ hm hm' h => Memory.eq_of_read_eq hm hm' fun a ha => h ⟨a, ha⟩,
    fun _ a v hm => Memory.wf_write hm a.isLt v⟩

/-! ## Registers and reset -/

@[simp] theorem State.reset_reg (i : Reg) : State.reset.reg i = 0x0000 := Vector.getElem_replicate i.isLt

/-- Settles O2: the law of a register's write, at all eight registers. -/
theorem everyRegisterHoldsWhatWasWritten : Obligations.EveryRegisterHoldsWhatWasWritten :=
  ⟨State.reg_setReg, State.reset_reg⟩

theorem loadImage_pc {bytes : List Byte} {s t : State} (h : loadImage bytes s = .success t) : t.pc = s.pc := by
  unfold loadImage at h
  split at h
  · obtain rfl := LoadResult.success.inj h
    rw [State.storeWords_frame]
  · cases h
  · cases h

theorem loadImages_pc {images : List (List Byte)} {s t : State} (h : loadImages images s = some t) :
    t.pc = s.pc := by
  induction images generalizing s with
  | nil => rw [← Option.some.inj h]
  | cons bytes rest ih =>
    unfold loadImages at h
    split at h
    · next e => exact (ih h).trans (loadImage_pc e)
    · cases h

/-- Settles O56: reset by its definition, and no load writes `pc`. -/
theorem resetZeroesEverythingButPcAndCond : Obligations.ResetZeroesEverythingButPcAndCond :=
  ⟨State.reset_reg, rfl, rfl, fun _ => rfl, fun _ _ h => loadImages_pc h⟩

/-- Settles O57: every field by the definition of reset and of the default parameters. -/
theorem resetStartsRunningWithAnEmptyLog : Obligations.ResetStartsRunningWithAnEmptyLog :=
  ⟨rfl, rfl, rfl, rfl, rfl, rfl, rfl, rfl, rfl, rfl⟩

end Sys2Proof.Machine
end

section
/-! PROOFS of the frames of all instructions and all steps: `pc` (R12, R13), the registers (R11), the console (R24). -/

namespace Sys2Proof.Machine

/-! ## What every routine of a trap leaves alone -/

theorem Dispatched.reg {s t : State} (e : Dispatched s t) (r : Reg) : t.reg r = s.reg r := by
  cases e with
  | string k =>
    obtain ⟨-, -, -, -, -, -, hreg, -⟩ := strRoutine_keeps k s
    exact hreg r
  | nothing | getc | out | inp | halt => rfl

theorem Dispatched.pc {s t : State} (e : Dispatched s t) : t.pc = s.pc := by
  cases e with
  | string k =>
    obtain ⟨-, -, hpc, -⟩ := strRoutine_keeps k s
    exact hpc
  | nothing | getc | out | inp | halt => rfl

/-! ## The pc -/

/-- Settles O41: but for a jump and a call no effect of an instruction writes `pc`. -/
theorem onlyControlTransfersWriteThePc : Obligations.OnlyControlTransfersWriteThePc := by
  intro i s t h hpc
  cases exec_effect h with
  | jump _ _ hc | call _ _ hc => exact hc
  | writeBack _ _ _ g | store _ _ _ g => exact absurd g.pc hpc
  | nothing => exact absurd rfl hpc
  | trap _ e => exact absurd e.pc hpc

/-! ## The registers -/

/-- What R11 says of the registers between `s` and `t`, by the destination. -/
def RegsWritten (s t : State) : Destination → Prop
  | .result dr => RegsKept [dr] s t
  | .link => RegsKept [7] s t ∧ t.reg 7 = s.pc
  | .none => RegsKept [] s t

theorem Effect.regsWritten {i : Instr} {s t : State} (e : Effect i s t) : RegsWritten s t i.destination := by
  cases e with
  | writeBack dr v hi g =>
    rw [hi]
    exact fun r hr => (RegsKept.setReg _ dr v r hr).trans (g.reg r)
  | store _ _ hi g => rw [hi]; exact fun r _ => g.reg r
  | jump _ hi | nothing hi => rw [hi]; exact fun _ _ => rfl
  | call _ hi => rw [hi]; exact ⟨RegsKept.setReg s 7 s.pc, State.reg_setReg_self s 7 s.pc⟩
  | trap hi e =>
    rw [hi]
    exact ⟨fun r hr => (e.reg r).trans (RegsKept.setReg s 7 s.pc r hr),
      (e.reg 7).trans (State.reg_setReg_self s 7 s.pc)⟩

/-- The end of a wait writes R0, whichever of GETC and IN waited. -/
theorem getcComplete_regsKept (c : Byte) (rest : List Byte) (s : State) : RegsKept [0] s (getcComplete c rest s) :=
  RegsKept.setReg s 0 (zext16 c)

theorem inComplete_regsKept (c : Byte) (rest : List Byte) (s : State) : RegsKept [0] s (inComplete c rest s) :=
  RegsKept.setReg s 0 (zext16 c)

/-- Settles O50: an instruction by its destination; a step that is no cycle by what it can have been. -/
theorem instructionsWriteOnlyTheirRegisters : Obligations.InstructionsWriteOnlyTheirRegisters := by
  refine ⟨fun i s t h => ?_, fun s t h hn => ?_⟩
  · have e := (exec_effect h).regsWritten
    cases i <;> exact e
  · obtain ⟨-, ⟨c, rest, -, rfl⟩ | ⟨rest, -, -, rfl⟩ | ⟨k, -, rfl⟩ | ⟨hc, -⟩ | ⟨c, rest, -, hp, -, rfl⟩ |
      ⟨c, rest, -, hp, -, rfl⟩⟩ := step_cases h
    · exact .inl fun _ _ => rfl
    · exact .inl fun _ _ => rfl
    · exact .inl fun r _ => (Dispatched.string k).reg r
    · exact absurd hc hn
    · exact .inr ⟨by simp [hp], rfl, getcComplete_regsKept c rest s.takeTurn⟩
    · exact .inr ⟨by simp [hp], rfl, inComplete_regsKept c rest s.takeTurn⟩

/-! ## The console -/

/-- The log only grows at its end, the pending queue only loses at its head, and the parameters stay. -/
structure StreamsKept (s t : State) : Prop where
  out : s.out <+: t.out
  cfg : t.cfg = s.cfg
  kbd : t.kbd <:+ s.kbd

theorem StreamsKept.trans {s t u : State} (h : StreamsKept s t) (g : StreamsKept t u) : StreamsKept s u :=
  ⟨h.out.trans g.out, g.cfg.trans h.cfg, g.kbd.trans h.kbd⟩

theorem StreamsKept.of_gateOf {s t : State} (g : s.GateOf t) : StreamsKept s t :=
  ⟨by rw [g.out], g.cfg, g.kbd⟩

theorem StreamsKept.refl (s : State) : StreamsKept s s := .of_gateOf (.refl s)

theorem Dispatched.streamsKept {s t : State} (e : Dispatched s t) : StreamsKept s t := by
  cases e with
  | nothing => exact .refl s
  | getc => exact ⟨List.prefix_refl _, rfl, List.suffix_refl _⟩
  | out | inp | halt => exact ⟨List.prefix_append _ _, rfl, List.suffix_refl _⟩
  | string k =>
    obtain ⟨-, -, -, -, hcfg, -, -, -, hout, hkbd⟩ := strRoutine_keeps k s
    exact ⟨hout, hcfg, hkbd⟩

theorem Effect.streamsKept {i : Instr} {s t : State} (e : Effect i s t) : StreamsKept s t := by
  cases e with
  | writeBack _ _ _ g | store _ _ _ g =>
    obtain ⟨hout, hcfg, hkbd⟩ := StreamsKept.of_gateOf g
    exact ⟨hout, hcfg, hkbd⟩
  | jump | call | nothing => exact ⟨List.prefix_refl _, rfl, List.suffix_refl _⟩
  | trap _ e =>
    obtain ⟨hout, hcfg, hkbd⟩ := e.streamsKept
    exact ⟨hout, hcfg, hkbd⟩

theorem cycle_streamsKept {s t : State} (h : cycle s = .next t) : StreamsKept s t := by
  obtain ⟨i, u, g, e⟩ := cycle_effect h
  obtain ⟨hout, hcfg, hkbd⟩ := e.streamsKept
  exact (StreamsKept.of_gateOf g).trans ⟨hout, hcfg, hkbd⟩

/-- Settles O53: every step but the keystroke's keeps the streams. -/
theorem consoleStreamsKeepTheirOrder : Obligations.ConsoleStreamsKeepTheirOrder := by
  intro s t h
  have kept (e : StreamsKept s.takeTurn t) : s.out <+: t.out ∧ t.cfg = s.cfg ∧
      (t.kbd <:+ s.kbd ∨ ∃ c, s.schedule.head? = some (.key c) ∧ t.kbd = s.kbd ++ [c]) :=
    ⟨e.out, e.cfg, .inl e.kbd⟩
  obtain ⟨-, ⟨c, rest, hs, rfl⟩ | ⟨rest, -, -, rfl⟩ | ⟨k, -, rfl⟩ | ⟨-, hc⟩ | ⟨c, rest, -, -, hk, rfl⟩ |
    ⟨c, rest, -, -, hk, rfl⟩⟩ := step_cases h
  · exact ⟨List.prefix_refl _, rfl, .inr ⟨c, by simp [hs], rfl⟩⟩
  · exact kept ⟨List.prefix_refl _, rfl, List.suffix_refl _⟩
  · exact kept (Dispatched.string k).streamsKept
  · exact kept (cycle_streamsKept hc)
  · exact kept ⟨List.prefix_refl _, rfl, [c], hk.symm⟩
  · exact kept ⟨List.prefix_append _ _, rfl, [c], hk.symm⟩

end Sys2Proof.Machine
end

section
/-! PROOFS of the condition code read only by BR (R15): the shared operations do the same whatever COND holds. -/

namespace Sys2Proof.Machine

theorem State.memRead_setCond (s : State) (c : Cond) (a : Word) :
    (s.setCond c).memRead a = ((s.memRead a).1, (s.memRead a).2.setCond c) := by
  have poll : (s.setCond c).poll = s.poll.setCond c := by
    cases h : s.kbd with
    | nil => rw [State.poll_of_nil h, State.poll_of_nil (s := s.setCond c) h]; rfl
    | cons k rest => rw [State.poll_of_cons h, State.poll_of_cons (s := s.setCond c) h]; rfl
  by_cases h : a = s.cfg.kbsrAddr <;> simp [State.memRead, State.gate, h, poll]

@[simp] theorem State.eaPc9_setCond (s : State) (c : Cond) (off : BitVec 9) :
    (s.setCond c).eaPc9 off = s.eaPc9 off := rfl

theorem State.strRead_setCond (s : State) (c : Cond) (a : Word) :
    (s.setCond c).strRead a = ((s.strRead a).1, (s.strRead a).2.setCond c) := by
  cases h : s.cfg.trapReadsGated with
  | false => rw [State.strRead_of_ungated h, State.strRead_of_ungated (s := s.setCond c) h]; rfl
  | true => rw [State.strRead_of_gated h, State.strRead_of_gated (s := s.setCond c) h, State.memRead_setCond]

theorem strWalk_setCond (k : StrRoutine) (n : Nat) (a : Word) (s : State) (c : Cond) :
    strWalk k n a (s.setCond c) = ((strWalk k n a s).1.setCond c, (strWalk k n a s).2) := by
  induction n generalizing a s with
  | zero => rfl
  | succ n ih =>
    rw [strWalk_succ, strWalk_succ, State.strRead_setCond]
    split
    · rfl
    · exact ih (a + 1) ((s.strRead a).2.outBytes _)

theorem strRoutine_setCond (k : StrRoutine) (s : State) (c : Cond) :
    strRoutine k (s.setCond c) = (strRoutine k s).setCond c := by
  have e : strWalk k (walkBound (s.setCond c)) ((s.setCond c).reg 0) (s.setCond c) = _ :=
    strWalk_setCond k (walkBound s) (s.reg 0) s c
  rw [strRoutine_eq, strRoutine_eq, e]
  rfl

theorem trapDispatch_setCond (vector : BitVec 8) (s : State) (c : Cond) :
    trapDispatch vector (s.setCond c) = (trapDispatch vector s).setCond c := by
  unfold trapDispatch
  split_ifs
  · rfl
  · rfl
  · exact strRoutine_setCond .puts s c
  · rfl
  · exact strRoutine_setCond .putsp s c
  · rfl
  · rfl

/-- A load overwrites COND. -/
theorem State.loadTo_setCond (s : State) (c : Cond) (dr : Reg) (ea : Word) :
    (s.setCond c).loadTo dr ea = s.loadTo dr ea := by
  rw [State.loadTo, State.memRead_setCond]
  rfl

/-- With another COND an instruction that is no BR ends in the same state, where it writes COND, or in the same state but
for COND, which it leaves. -/
theorem exec_setCond {i : Instr} (hi : ∀ mask off, i ≠ .br mask off) (s : State) (c : Cond) :
    exec i (s.setCond c) = exec i s ∨ ∃ t, exec i s = .next t ∧ exec i (s.setCond c) = .next (t.setCond c) := by
  cases i with
  | br mask off => exact absurd rfl (hi mask off)
  | addReg | addImm | andReg | andImm | notReg | lea => exact .inl rfl
  | ld dr off => exact .inl (congrArg Host.Outcome.next (s.loadTo_setCond c dr (s.eaPc9 off)))
  | ldr dr baseR off => exact .inl (congrArg Host.Outcome.next (s.loadTo_setCond c dr (s.eaBase baseR off)))
  | ldi dr off =>
    left
    simp only [exec, execLdi, State.eaPc9_setCond, State.memRead_setCond, State.loadTo_setCond]
  | sti sr off =>
    refine .inr ⟨_, rfl, ?_⟩
    simp only [exec, execSti, State.eaPc9_setCond, State.memRead_setCond]
    rfl
  | st | str | jsr | jsrr | rti | jmp | res | getc | out | inp | halt => exact .inr ⟨_, rfl, rfl⟩
  | trap vector => exact .inr ⟨_, rfl, congrArg _ (trapDispatch_setCond vector s.trapEntry c)⟩
  | puts => exact .inr ⟨_, rfl, congrArg _ (strRoutine_setCond .puts s.trapEntry c)⟩
  | putsp => exact .inr ⟨_, rfl, congrArg _ (strRoutine_setCond .putsp s.trapEntry c)⟩

/-- Settles O49: where COND is written the two runs end alike, and where it is left they differ in COND alone. -/
theorem condIsReadOnlyByBranch : Obligations.CondIsReadOnlyByBranch := by
  intro i hi s t c h
  obtain e | ⟨u, hu, e⟩ := exec_setCond hi s c
  · exact ⟨t, e.trans h, rfl, .inl rfl⟩
  · obtain rfl : u = t := Host.Outcome.next.inj (hu.symm.trans h)
    exact ⟨u.setCond c, e, rfl, .inr rfl⟩

end Sys2Proof.Machine
end

section
/-! PROOFS of the gated read (R32, R35) and of the write (R33). -/

namespace Sys2Proof.Machine

/-! ## The write -/

/-- A write, at a device address too, is to one word. -/
theorem memWrite_memKept (s : State) (a v : Word) : MemKept [a] s (s.memWrite a v) :=
  fun _ hb => State.word_setWord_of_ne (by simpa using hb) s v

/-- Settles O4: the law of the storage write; every field but memory is as before by definition. -/
theorem writeStoresOneWordAndIsNeverIntercepted : Obligations.WriteStoresOneWordAndIsNeverIntercepted := fun s a v =>
  ⟨State.word_setWord_self s a v, memWrite_memKept s a v, fun _ _ => rfl, rfl, rfl, ⟨rfl, rfl⟩, ⟨rfl, rfl, rfl, rfl, rfl⟩⟩

/-! ## The gate in the words of the frames -/

theorem State.GateOf.memKept {s t : State} (g : s.GateOf t) : MemKept [s.cfg.kbsrAddr, s.cfg.kbdrAddr] s t := by
  intro a ha
  obtain ⟨hstatus, hdata⟩ : a ≠ s.cfg.kbsrAddr ∧ a ≠ s.cfg.kbdrAddr := by simpa using ha
  exact g.word a hstatus hdata

theorem State.GateOf.modeKept {s t : State} (g : s.GateOf t) : ModeKept s t :=
  ⟨g.run, g.phase, g.walk, g.schedule, g.cfg⟩

/-! ## The poll with a character pending -/

theorem State.poll_kbd_of_cons {s : State} {c : Byte} {rest : List Byte} (h : s.kbd = c :: rest) :
    s.poll.kbd = rest := by
  rw [State.poll_of_cons h]; rfl

theorem State.poll_word_kbdr_of_cons {s : State} {c : Byte} {rest : List Byte} (h : s.kbd = c :: rest) :
    s.poll.word s.cfg.kbdrAddr = zext16 c := by
  rw [State.poll_of_cons h, State.word_setWord_self]

/-- The status word stands, since the data register, written after it, is another word (R19). -/
theorem State.poll_word_kbsr_of_cons {s : State} {c : Byte} {rest : List Byte} (hne : s.cfg.kbsrAddr ≠ s.cfg.kbdrAddr)
    (h : s.kbd = c :: rest) : s.poll.word s.cfg.kbsrAddr = 0x8000 := by
  rw [State.poll_of_cons h, State.word_setWord_of_ne hne, State.word_setWord_self]

/-- A read of `KBSR_ADDR` with a character pending returns 0x8000. -/
theorem State.memRead_kbsr_of_cons {s : State} {c : Byte} {rest : List Byte} (hne : s.cfg.kbsrAddr ≠ s.cfg.kbdrAddr)
    (h : s.kbd = c :: rest) : s.memRead s.cfg.kbsrAddr = (0x8000, s.poll) := by
  simp [State.memRead, State.gate, State.poll_word_kbsr_of_cons hne h]

/-- Settles O6: the frame of every gated read, then another address, nothing pending, and a character pending. -/
theorem gatedReadPollsTheKeyboard : Obligations.GatedReadPollsTheKeyboard := by
  intro s a hne
  have g := s.memRead_gateOf a
  refine ⟨fun r _ => g.reg r, g.pc, g.cond, g.out, g.modeKept, fun ha => ?_, ?_, ?_⟩
  · rw [State.memRead_of_ne ha]
    exact ⟨rfl, rfl⟩
  · rintro rfl hk
    rw [State.memRead_kbsr_of_nil hk]
    exact ⟨rfl, State.word_setWord_self s _ _, memWrite_memKept s _ _, hk⟩
  · rintro rfl c rest hk
    rw [State.memRead_kbsr_of_cons hne hk]
    exact ⟨rfl, State.poll_word_kbsr_of_cons hne hk, State.poll_word_kbdr_of_cons hk, s.poll_gateOf.memKept,
      State.poll_kbd_of_cons hk⟩

/-! ## Repeated reads of the status register (R35) -/

/-- In `v`, which has the parameters `cfg`, nothing is pending and the data register holds the character taken last. -/
structure State.Latched (cfg : Config) (c : Byte) (v : State) : Prop where
  cfg_eq : v.cfg = cfg
  kbd : v.kbd = []
  data : v.word cfg.kbdrAddr = zext16 c

/-- The poll that takes the only character pending latches it. -/
theorem State.poll_latched {s : State} {c : Byte} (h : s.kbd = [c]) : s.poll.Latched s.cfg c :=
  ⟨s.poll_gateOf.cfg, State.poll_kbd_of_cons h, State.poll_word_kbdr_of_cons h⟩

/-- Once a character is latched the status register reads as 0x0000. -/
theorem State.Latched.memRead_kbsr {cfg : Config} {c : Byte} {v : State} (h : v.Latched cfg c) :
    v.memRead cfg.kbsrAddr = (0x0000, v.setWord cfg.kbsrAddr 0x0000) := by
  obtain ⟨rfl, hk, -⟩ := h
  exact State.memRead_kbsr_of_nil hk

/-- A read of the data register returns the latched character and changes nothing. -/
theorem State.Latched.memRead_kbdr {cfg : Config} {c : Byte} {v : State} (h : v.Latched cfg c)
    (hne : cfg.kbsrAddr ≠ cfg.kbdrAddr) : v.memRead cfg.kbdrAddr = (zext16 c, v) := by
  obtain ⟨rfl, -, hd⟩ := h
  rw [State.memRead_of_ne hne.symm, hd]

/-- A further read of the status register keeps the latched character. -/
theorem State.Latched.after_memRead_kbsr {cfg : Config} {c : Byte} {v : State} (h : v.Latched cfg c)
    (hne : cfg.kbsrAddr ≠ cfg.kbdrAddr) : (v.memRead cfg.kbsrAddr).2.Latched cfg c := by
  rw [h.memRead_kbsr]
  exact ⟨h.cfg_eq, h.kbd, (State.word_setWord_of_ne hne.symm v _).trans h.data⟩

/-- Settles O7: the first read latches the character, which every later read keeps; a second character pending is latched
by a second poll. -/
theorem keystrokeIsReportedByExactlyOneRead : Obligations.KeystrokeIsReportedByExactlyOneRead := by
  intro s c hne
  refine ⟨fun hk => ?_, fun d hk => ?_⟩
  · rw [State.memRead_kbsr_of_cons hne hk]
    refine ⟨rfl, fun n => ?_⟩
    have latched := Function.Iterate.rec (State.Latched s.cfg c) (State.poll_latched hk)
      (fun _ hv => hv.after_memRead_kbsr hne) n
    exact ⟨congrArg Prod.fst latched.memRead_kbsr, latched.memRead_kbdr hne, latched.kbd⟩
  · have hcfg : s.poll.cfg = s.cfg := s.poll_gateOf.cfg
    have hk' : s.poll.kbd = [d] := State.poll_kbd_of_cons hk
    have second : s.poll.memRead s.cfg.kbsrAddr = (0x8000, s.poll.poll) := by
      rw [← hcfg]
      exact State.memRead_kbsr_of_cons (by rwa [hcfg]) hk'
    have latched := State.poll_latched hk'
    rw [hcfg] at latched
    rw [State.memRead_kbsr_of_cons hne hk, second]
    exact ⟨rfl, State.poll_word_kbdr_of_cons hk, rfl, latched.data, latched.kbd⟩

end Sys2Proof.Machine
end

section
/-! PROOFS of a store seen by the next fetch (R44). -/

namespace Sys2Proof.Machine

/-- On the CORE's turn, in no wait, the step is a cycle (R70, R71). -/
theorem step_of_cycleNext {s : State} (h : s.cycleNext) : step s = cycle s.takeTurn := by
  obtain ⟨hrun, hphase, hwalk, hturn⟩ := h
  have hfree : s.holding = false := by simp [State.holding, hphase, hwalk]
  have hphase' : s.takeTurn.phase = .none := hphase
  have hwalk' : s.takeTurn.walk = none := hwalk
  rw [step_of_core_turn hrun hturn hfree]
  simp [coreStep, hphase', hwalk']

/-- A fetch away from `KBSR_ADDR` takes the stored word (R71). -/
theorem cycle_of_ne {s : State} (h : s.pc ≠ s.cfg.kbsrAddr) :
    cycle s = exec (decode (s.word s.pc)) (s.setPc (s.pc + 1)) := by
  simp [cycle, fetch, State.memRead_of_ne h]

/-- With no turn scheduled, a step that fetches away from `KBSR_ADDR` executes the word at `pc`. -/
theorem step_eq_exec_word {s : State} (h : s.cycleNext) (hs : s.schedule = []) (hpc : s.pc ≠ s.cfg.kbsrAddr) :
    step s = exec (decode (s.word s.pc)) (s.setPc (s.pc + 1)) := by
  rw [step_of_cycleNext h, State.takeTurn_of_nil hs, cycle_of_ne hpc]

theorem State.eaPc9_zero (s : State) : s.eaPc9 0 = s.pc := by
  simp [State.eaPc9, sext]

/-- Settles O42: the ST stores at its own incremented `pc`, where the next step fetches. -/
theorem storedWordIsTheNextInstruction : Obligations.StoredWordIsTheNextInstruction := by
  intro s sr h hs hpc hpc' hst
  have first : step s = .next ((s.setPc (s.pc + 1)).setWord (s.pc + 1) (s.reg sr)) := by
    rw [step_eq_exec_word h hs hpc, hst, exec, execSt, State.eaPc9_zero]
    rfl
  refine ⟨_, first, ?_⟩
  rw [step_eq_exec_word (s := (s.setPc (s.pc + 1)).setWord (s.pc + 1) (s.reg sr)) h hs hpc']
  simp [BitVec.add_assoc]

end Sys2Proof.Machine
end

section
/-! PROOFS of what each instruction may change in memory (R31, R33, R38) and of those that make no access (R31, R133). -/

namespace Sys2Proof

/-- The instructions that make no memory access after the fetch: the last row of R31. -/
def Instr.MakesNoMemoryAccess : Instr → Prop
  | .br _ _ | .addReg _ _ _ | .addImm _ _ _ | .andReg _ _ _ | .andImm _ _ _ | .notReg _ _ | .jsr _ | .jsrr _ => True
  | .rti | .jmp _ | .res | .lea _ _ | .getc | .out | .inp | .halt => True
  | .trap vector => vectorHasNoRoutine vector = true
  | .ld _ _ | .st _ _ | .ldr _ _ _ | .str _ _ _ | .ldi _ _ | .sti _ _ | .puts | .putsp => False

end Sys2Proof

namespace Sys2Proof.Machine

/-- Such an instruction does the same over any memory, and leaves it. -/
theorem exec_of_makesNoMemoryAccess {i : Instr} (hi : i.MakesNoMemoryAccess) {s t : State} (h : exec i s = .next t)
    (m : Memory) : exec i { s with mem := m } = .next { t with mem := m } ∧ t.mem = s.mem := by
  cases i with
  | br mask off =>
    obtain rfl := Host.Outcome.next.inj h
    by_cases hc : condMatches mask s.cond = true
    · simp only [exec, execBr, hc, if_true]
      exact ⟨rfl, rfl⟩
    · simp only [exec, execBr, hc]
      exact ⟨rfl, rfl⟩
  | trap vector =>
    simp only [exec, execTrap, trapDispatch_of_noRoutine hi] at h ⊢
    obtain rfl := Host.Outcome.next.inj h
    exact ⟨rfl, rfl⟩
  | addReg | addImm | andReg | andImm | notReg | lea | jmp | jsr | jsrr | rti | res | getc | out | inp | halt =>
    obtain rfl := Host.Outcome.next.inj h
    exact ⟨rfl, rfl⟩
  | ld | ldr | ldi | st | str | sti | puts | putsp => exact hi.elim

/-- Settles O52: the instructions the statement speaks of are those that make no memory access. -/
theorem otherInstructionsMakeNoMemoryAccess : Obligations.OtherInstructionsMakeNoMemoryAccess := by
  intro i s t m h
  have noAccess (hi : i.MakesNoMemoryAccess) := exec_of_makesNoMemoryAccess hi h m
  cases i with
  | br | addReg | addImm | andReg | andImm | notReg | lea | jmp | jsr | jsrr | rti | res | getc | out | inp | halt =>
    exact noAccess trivial
  | trap vector => exact noAccess
  | ld | ldr | ldi | st | str | sti | puts | putsp => trivial

/-- One change of memory after another changes at most the words of both. -/
theorem MemKept.trans {xs ys : List Word} {s t u : State} (h : MemKept xs s t) (g : MemKept ys t u) :
    MemKept (xs ++ ys) s u := by
  intro a ha
  obtain ⟨hx, hy⟩ : a ∉ xs ∧ a ∉ ys := by simpa using ha
  exact (g a hy).trans (h a hx)

theorem exec_memKept_of_makesNoMemoryAccess {i : Instr} (hi : i.MakesNoMemoryAccess) {s t : State}
    (h : exec i s = .next t) : MemKept [] s t := by
  obtain ⟨-, hmem⟩ := exec_of_makesNoMemoryAccess hi h s.mem
  exact fun a _ => congrArg (·.read a.toNat) hmem

/-- A string routine reads memory, at most through the gate. -/
theorem strRoutine_memKept (k : StrRoutine) (s : State) :
    MemKept [s.cfg.kbsrAddr, s.cfg.kbdrAddr] s (strRoutine k s) := by
  obtain ⟨_, g⟩ := strRoutine_gateOf k s
  exact g.memKept

/-- Settles O51: a store by its write, a load and a string by the gate, STI by both; the others make no access. -/
theorem memoryIsWrittenOnlyByStoresAndTheGate : Obligations.MemoryIsWrittenOnlyByStoresAndTheGate := by
  intro i s t h
  have noAccess (hi : i.MakesNoMemoryAccess) := exec_memKept_of_makesNoMemoryAccess hi h
  cases i with
  | br | addReg | addImm | andReg | andImm | notReg | lea | jmp | jsr | jsrr | rti | res | getc | out | inp | halt =>
    exact noAccess trivial
  | trap vector => exact noAccess
  | st | str =>
    obtain rfl := Host.Outcome.next.inj h
    exact memWrite_memKept s _ _
  | sti sr off =>
    obtain rfl := Host.Outcome.next.inj h
    exact (s.memRead_gateOf (s.eaPc9 off)).memKept.trans (memWrite_memKept _ _ _)
  | ld | ldr =>
    obtain rfl := Host.Outcome.next.inj h
    exact (s.memRead_gateOf _).memKept
  | ldi dr off =>
    obtain rfl := Host.Outcome.next.inj h
    exact ((s.memRead_gateOf (s.eaPc9 off)).trans (State.memRead_gateOf _ _)).memKept
  | puts =>
    obtain rfl := Host.Outcome.next.inj h
    exact strRoutine_memKept .puts s.trapEntry
  | putsp =>
    obtain rfl := Host.Outcome.next.inj h
    exact strRoutine_memKept .putsp s.trapEntry

end Sys2Proof.Machine
end

section
/-! PROOFS of the encoding (R50 to R57): a word decodes to a well-formed instruction exactly when it carries the
instruction's named fields. -/

namespace Sys2Proof

/-! ## The named fields -/

/-- A named field in an instruction's words: its lowest bit, its width and its value. -/
structure NamedField where
  lo : Nat
  width : Nat
  value : BitVec width

/-- The word carries the field. -/
def NamedField.In (f : NamedField) (w : Word) : Prop := w.extractLsb' f.lo f.width = f.value

/-- The named fields of an instruction (R52), the opcode first; the bits R55 ignores are in none of them. -/
def Instr.fields : Instr → List NamedField
  | .br cond off => [⟨12, 4, 0b0000⟩, ⟨9, 3, cond⟩, ⟨0, 9, off⟩]
  | .addReg dr sr1 sr2 => [⟨12, 4, 0b0001⟩, ⟨9, 3, dr.bits⟩, ⟨6, 3, sr1.bits⟩, ⟨5, 1, 0b0⟩, ⟨0, 3, sr2.bits⟩]
  | .addImm dr sr1 imm5 => [⟨12, 4, 0b0001⟩, ⟨9, 3, dr.bits⟩, ⟨6, 3, sr1.bits⟩, ⟨5, 1, 0b1⟩, ⟨0, 5, imm5⟩]
  | .ld dr off => [⟨12, 4, 0b0010⟩, ⟨9, 3, dr.bits⟩, ⟨0, 9, off⟩]
  | .st sr off => [⟨12, 4, 0b0011⟩, ⟨9, 3, sr.bits⟩, ⟨0, 9, off⟩]
  | .jsr off => [⟨12, 4, 0b0100⟩, ⟨11, 1, 0b1⟩, ⟨0, 11, off⟩]
  | .jsrr baseR => [⟨12, 4, 0b0100⟩, ⟨11, 1, 0b0⟩, ⟨6, 3, baseR.bits⟩]
  | .andReg dr sr1 sr2 => [⟨12, 4, 0b0101⟩, ⟨9, 3, dr.bits⟩, ⟨6, 3, sr1.bits⟩, ⟨5, 1, 0b0⟩, ⟨0, 3, sr2.bits⟩]
  | .andImm dr sr1 imm5 => [⟨12, 4, 0b0101⟩, ⟨9, 3, dr.bits⟩, ⟨6, 3, sr1.bits⟩, ⟨5, 1, 0b1⟩, ⟨0, 5, imm5⟩]
  | .ldr dr baseR off => [⟨12, 4, 0b0110⟩, ⟨9, 3, dr.bits⟩, ⟨6, 3, baseR.bits⟩, ⟨0, 6, off⟩]
  | .str sr baseR off => [⟨12, 4, 0b0111⟩, ⟨9, 3, sr.bits⟩, ⟨6, 3, baseR.bits⟩, ⟨0, 6, off⟩]
  | .rti => [⟨12, 4, 0b1000⟩]
  | .notReg dr sr => [⟨12, 4, 0b1001⟩, ⟨9, 3, dr.bits⟩, ⟨6, 3, sr.bits⟩]
  | .ldi dr off => [⟨12, 4, 0b1010⟩, ⟨9, 3, dr.bits⟩, ⟨0, 9, off⟩]
  | .sti sr off => [⟨12, 4, 0b1011⟩, ⟨9, 3, sr.bits⟩, ⟨0, 9, off⟩]
  | .jmp baseR => [⟨12, 4, 0b1100⟩, ⟨6, 3, baseR.bits⟩]
  | .res => [⟨12, 4, 0b1101⟩]
  | .lea dr off => [⟨12, 4, 0b1110⟩, ⟨9, 3, dr.bits⟩, ⟨0, 9, off⟩]
  | .trap vector => [⟨12, 4, 0b1111⟩, ⟨0, 8, vector⟩]
  | .getc => [⟨12, 4, 0b1111⟩, ⟨0, 8, 0x20⟩]
  | .out => [⟨12, 4, 0b1111⟩, ⟨0, 8, 0x21⟩]
  | .puts => [⟨12, 4, 0b1111⟩, ⟨0, 8, 0x22⟩]
  | .inp => [⟨12, 4, 0b1111⟩, ⟨0, 8, 0x23⟩]
  | .putsp => [⟨12, 4, 0b1111⟩, ⟨0, 8, 0x24⟩]
  | .halt => [⟨12, 4, 0b1111⟩, ⟨0, 8, 0x25⟩]

/-- The word carries every field of the instruction. -/
def Instr.FieldsIn (i : Instr) (w : Word) : Prop := ∀ f ∈ i.fields, f.In w

/-! ## Each field as the decoder reads it -/

section
variable {w : Word}

/-- A field of one bit is that bit. -/
theorem extract_one_eq_iff {lo : Nat} {v : BitVec 1} : w.extractLsb' lo 1 = v ↔ w.getLsbD lo = v.getLsbD 0 := by
  constructor
  · rintro rfl
    simp
  · intro h
    refine BitVec.eq_of_getLsbD_eq fun b hb => ?_
    obtain rfl : b = 0 := by omega
    simpa using h

theorem Reg.eq_bits_iff {v : BitVec 3} {r : Reg} : v = r.bits ↔ Reg.ofBits v = r :=
  ⟨fun h => by rw [h, Reg.ofBits_bits], fun h => by rw [← h, Reg.bits_ofBits]⟩

@[simp] theorem opcode_in_iff {v : BitVec 4} : NamedField.In ⟨12, 4, v⟩ w ↔ opcodeOf w = v := .rfl
@[simp] theorem cond_in_iff {v : BitVec 3} : NamedField.In ⟨9, 3, v⟩ w ↔ condField w = v := .rfl
@[simp] theorem condField_eq_bits_iff {r : Reg} : condField w = r.bits ↔ regHi w = r := Reg.eq_bits_iff
@[simp] theorem regMid_in_iff {r : Reg} : NamedField.In ⟨6, 3, r.bits⟩ w ↔ regMid w = r := Reg.eq_bits_iff
@[simp] theorem regLo_in_iff {r : Reg} : NamedField.In ⟨0, 3, r.bits⟩ w ↔ regLo w = r := Reg.eq_bits_iff
@[simp] theorem immBit_in_iff {v : BitVec 1} : NamedField.In ⟨5, 1, v⟩ w ↔ immBit w = v.getLsbD 0 := extract_one_eq_iff
@[simp] theorem flagBit_in_iff {v : BitVec 1} : NamedField.In ⟨11, 1, v⟩ w ↔ flagBit w = v.getLsbD 0 :=
  extract_one_eq_iff
@[simp] theorem imm5_in_iff {v : BitVec 5} : NamedField.In ⟨0, 5, v⟩ w ↔ imm5Field w = v := .rfl
@[simp] theorem offset6_in_iff {v : BitVec 6} : NamedField.In ⟨0, 6, v⟩ w ↔ offset6Field w = v := .rfl
@[simp] theorem pcoffset9_in_iff {v : BitVec 9} : NamedField.In ⟨0, 9, v⟩ w ↔ pcoffset9Field w = v := .rfl
@[simp] theorem pcoffset11_in_iff {v : BitVec 11} : NamedField.In ⟨0, 11, v⟩ w ↔ pcoffset11Field w = v := .rfl
@[simp] theorem vector_in_iff {v : BitVec 8} : NamedField.In ⟨0, 8, v⟩ w ↔ vectorField w = v := .rfl

end

/-! ## The encoder, the mask of the named bits, and the decoder -/

theorem Instr.fieldsIn_encode (i : Instr) : i.FieldsIn (encode i) := by
  cases i <;>
    simp (disch := decide) only [FieldsIn, fields, encode, NamedField.In, List.forall_mem_cons,
      BitVec.extractLsb'_append_eq_of_add_le, BitVec.extractLsb'_append_eq_of_le] <;>
    simp

/-- The mask of R55 is the union of the fields. -/
theorem Instr.namedBits_iff (i : Instr) :
    ∀ b < 16, i.namedBits.getLsbD b = true ↔ ∃ f ∈ i.fields, f.lo ≤ b ∧ b < f.lo + f.width := by
  cases i <;>
    simp only [namedBits, fields, List.mem_cons, exists_eq_or_imp, List.not_mem_nil, false_and, exists_false] <;>
    decide

theorem Instr.fields_le (i : Instr) : ∀ f ∈ i.fields, f.lo + f.width ≤ 16 := by
  cases i <;> simp [fields]

/-- A word that agrees on the named bits with one that carries the fields carries them too. -/
theorem Instr.FieldsIn.of_and_namedBits_eq {i : Instr} {w v : Word} (hw : i.FieldsIn w)
    (h : w &&& i.namedBits = v &&& i.namedBits) : i.FieldsIn v := by
  intro f hf
  have hle := i.fields_le f hf
  have e : w.extractLsb' f.lo f.width = v.extractLsb' f.lo f.width :=
    extract_eq_of_and_eq h fun k hk => (i.namedBits_iff _ (by omega)).2 ⟨f, hf, by omega, by omega⟩
  exact e.symm.trans (hw f hf)

/-- Words that carry an instruction's fields agree on its named bits. -/
theorem Instr.FieldsIn.and_namedBits_eq {i : Instr} {w v : Word} (hw : i.FieldsIn w) (hv : i.FieldsIn v) :
    w &&& i.namedBits = v &&& i.namedBits := by
  refine BitVec.eq_of_getLsbD_eq fun b hb => ?_
  rw [BitVec.getLsbD_and, BitVec.getLsbD_and]
  cases hn : i.namedBits.getLsbD b with
  | false => simp
  | true =>
    obtain ⟨f, hf, hlo, hhi⟩ := (i.namedBits_iff b hb).1 hn
    have bit := congrArg (BitVec.getLsbD · (b - f.lo)) ((hw f hf).trans (hv f hf).symm)
    have hlt : b - f.lo < f.width := by omega
    simpa [hlt, Nat.add_sub_of_le hlo] using bit

theorem decodeTrap_of_noRoutine {v : BitVec 8} (h : vectorHasNoRoutine v = true) : decodeTrap v = .trap v := by
  obtain ⟨h0, h1, h2, h3, h4, h5⟩ := (vectorHasNoRoutine_iff v).1 h
  simp [decodeTrap, h0, h1, h2, h3, h4, h5]

theorem fields_decodeTrap (v : BitVec 8) : (decodeTrap v).fields = [⟨12, 4, 0b1111⟩, ⟨0, 8, v⟩] := by
  unfold decodeTrap
  split_ifs <;> simp [Instr.fields, *]

/-- A word decodes to every well-formed instruction whose fields it carries. -/
theorem decode_of_fieldsIn {i : Instr} (hi : i.wf = true) {w : Word} (h : i.FieldsIn w) : decode w = i := by
  cases i with
  | trap vector => simp_all [Instr.FieldsIn, Instr.fields, decode, decodeTrap_of_noRoutine hi]
  | _ => simp_all [Instr.FieldsIn, Instr.fields, decode, decodeTrap]

/-- A word carries the fields of the instruction it decodes to. Case 16 is TRAP, which the decoder takes for the one opcode
left; cases 2, 5 and 6 are the opcodes of two forms: ADD, JSR with JSRR, and AND. -/
theorem fieldsIn_decode (w : Word) : (decode w).FieldsIn w := by
  unfold decode
  split
  case h_16 =>
    have hop : opcodeOf w = 0b1111#4 := by
      generalize opcodeOf w = o at *
      revert o
      decide
    simp [Instr.FieldsIn, fields_decodeTrap, hop]
  case h_2 | h_5 | h_6 => split <;> simp [Instr.FieldsIn, Instr.fields, *]
  all_goals simp [Instr.FieldsIn, Instr.fields, *]

/-- Settles O37: the encoding carries the instruction's fields, by which the decoder knows it. -/
theorem decodeOfEncodeIsTheInstruction : Obligations.DecodeOfEncodeIsTheInstruction :=
  fun i hi => decode_of_fieldsIn hi i.fieldsIn_encode

/-- Settles O39: a word, any word that agrees with it on the named bits, and the encoder's word carry the same fields. -/
theorem ignoredBitsDoNotMatter : Obligations.IgnoredBitsDoNotMatter := by
  intro w v h
  have hw := fieldsIn_decode w
  exact ⟨decode_of_fieldsIn (decode_wf w) (hw.of_and_namedBits_eq h), (decode w).fieldsIn_encode.and_namedBits_eq hw⟩

/-! ## The rows of the opcode table (R57) -/

theorem Row.selects_iff {r : Row} {w : Word} : r.selects w = true ↔ w &&& r.mask = r.pattern := beq_iff_eq

theorem row_selects_encode (i : Instr) : i.row.selects (encode i) = true := by
  open Laws.RowMatch in
  cases i
  exacts [br _ _, addReg _ _ _, addImm _ _ _, ld _ _, st _ _, jsr _, jsrr _, andReg _ _ _, andImm _ _ _, ldr _ _ _,
    str _ _ _, rti, notReg _ _, ldi _ _, sti _ _, jmp _, res, lea _ _, trap _, getc, out, puts, inp, putsp, halt]

/-- The bits that select an instruction's row are named. -/
theorem Instr.namedBits_and_mask (i : Instr) : i.namedBits &&& i.row.mask = i.row.mask := by
  cases i <;> simp only [namedBits, row] <;> decide

/-- A word selects the row of the instruction it decodes to: it agrees with the encoding on the row's mask. -/
theorem row_decode_selects (w : Word) : (decode w).row.selects w = true := by
  have agree := (fieldsIn_decode w).and_namedBits_eq (decode w).fieldsIn_encode
  rw [Row.selects_iff, ← (decode w).namedBits_and_mask, ← BitVec.and_assoc, agree, BitVec.and_assoc,
    (decode w).namedBits_and_mask]
  exact Row.selects_iff.1 (row_selects_encode _)

theorem Instr.row_mem (i : Instr) : i.row ∈ formRows ∨ i.row ∈ trapRows := by
  cases i <;> simp only [row] <;> decide

/-- A word that selects one of the six rows selects the row of TRAP. -/
theorem trap_selects_of_mem_trapRows {r : Row} (hr : r ∈ trapRows) {w : Word} (h : r.selects w = true) :
    Row.selects ⟨"TRAP", 0xF000, 0xF000⟩ w = true := by
  have refines : ∀ r ∈ trapRows, r.mask &&& 0xF000 = 0xF000 ∧ r.pattern &&& 0xF000 = 0xF000 := by decide
  obtain ⟨hmask, hpattern⟩ := refines r hr
  rw [Row.selects_iff] at h ⊢
  rw [← hmask, ← BitVec.and_assoc, h, hpattern, hmask]

/-- No word selects two of the 19 forms: their patterns differ where both masks look. -/
theorem formRows_eq_of_selects {r q : Row} (hr : r ∈ formRows) (hq : q ∈ formRows) {w : Word}
    (hrw : r.selects w = true) (hqw : q.selects w = true) : r = q := by
  have exclusive : ∀ r ∈ formRows, ∀ q ∈ formRows, r.pattern &&& q.mask = q.pattern &&& r.mask → r = q := by decide
  refine exclusive r hr q hq ?_
  rw [← Row.selects_iff.1 hrw, ← Row.selects_iff.1 hqw]
  ac_rfl

/-- The form that a word selects is the only one it selects. -/
theorem formRows_filter_selects {r : Row} (hr : r ∈ formRows) {w : Word} (h : r.selects w = true) :
    formRows.filter (fun q => q.selects w) = [r] := by
  have only : ∀ q ∈ formRows, q.selects w = (q == r) := fun q hq =>
    Bool.eq_iff_iff.2 ⟨fun hqw => beq_iff_eq.2 (formRows_eq_of_selects hq hr hqw h), fun e => by rwa [beq_iff_eq.1 e]⟩
  have nodup : formRows.Nodup := by decide
  rw [List.filter_congr only, List.filter_beq, List.count_eq_one_of_mem nodup hr]
  rfl

/-- Settles O38: the row of the decoded instruction, or TRAP's where that is one of the six, and no other. -/
theorem everyWordSelectsExactlyOneForm : Obligations.EveryWordSelectsExactlyOneForm := by
  intro w
  have own := row_decode_selects w
  refine ⟨?_, own, decode_wf w⟩
  obtain hform | htrap := (decode w).row_mem
  · exact ⟨_, formRows_filter_selects hform own, .inl rfl⟩
  · exact ⟨_, formRows_filter_selects (by decide) (trap_selects_of_mem_trapRows htrap own), .inr ⟨rfl, htrap⟩⟩

/-- Settles O36, by evaluation of the decoder on the ten words. -/
theorem exampleWordsDecodeAsTheSpecSays : Obligations.ExampleWordsDecodeAsTheSpecSays := by
  unfold Obligations.ExampleWordsDecodeAsTheSpecSays
  decide

end Sys2Proof
end

section
/-! PROOFS of the flags (R74, R75), of the cycle (R71) and of the states that have no step (R70, R73, R76, R77). -/

namespace Sys2Proof.Machine

/-! ## The flag updater (R74) -/

theorem condOf_eq_neg_iff {v : Word} : condOf v = .neg ↔ v.getLsbD 15 = true := by
  unfold condOf
  split_ifs with hneg hzero
  · exact iff_of_true rfl hneg
  · exact iff_of_false nofun hneg
  · exact iff_of_false nofun hneg

theorem condOf_eq_zero_iff {v : Word} : condOf v = .zero ↔ v = 0x0000 := by
  unfold condOf
  split_ifs with hneg hzero
  · exact iff_of_false nofun fun hzero => by simp [hzero] at hneg
  · exact iff_of_true rfl hzero
  · exact iff_of_false nofun hzero

/-- The values that are neither zero nor have bit 15 set. -/
theorem condOf_eq_pos_iff {v : Word} : condOf v = .pos ↔ 0x0001 ≤ v ∧ v ≤ 0x7FFF := by
  have hneg : condOf v = .neg ↔ 0x8000 ≤ v.toNat := by
    rw [condOf_eq_neg_iff, ← BitVec.msb_eq_getLsbD_last, BitVec.msb_eq_decide, decide_eq_true_iff]
  have hzero := condOf_eq_zero_iff (v := v)
  cases h : condOf v with
  | pos =>
    simp only [h, reduceCtorEq, false_iff] at hneg hzero
    exact iff_of_true rfl (by bv_omega)
  | zero => exact iff_of_false nofun (by simp [hzero.1 h])
  | neg =>
    have := hneg.1 h
    exact iff_of_false nofun (by bv_omega)

/-- Settles O3: the three classes of the value, which are its sign as a number, and the one field that is written. -/
theorem flagUpdaterClassifiesTheValue : Obligations.FlagUpdaterClassifiesTheValue := fun s i =>
  ⟨condOf_eq_neg_iff, condOf_eq_zero_iff, condOf_eq_pos_iff, condOf_eq_signOf (s.reg i), rfl⟩

/-! ## Who writes COND (R75) -/

/-- What R75 says of COND between `s` and `t`, by the destination. -/
def CondWritten (s t : State) : Destination → Prop
  | .result dr => t.cond = signOf (t.reg dr)
  | .link | .none => t.cond = s.cond

theorem Dispatched.cond {s t : State} (e : Dispatched s t) : t.cond = s.cond := by
  cases e with
  | string k =>
    obtain ⟨-, -, -, hcond, -⟩ := strRoutine_keeps k s
    exact hcond
  | nothing | getc | out | inp | halt => rfl

theorem writeBack_cond (s : State) (dr : Reg) (v : Word) :
    (s.writeBack dr v).cond = signOf ((s.writeBack dr v).reg dr) := by
  simp

theorem Effect.condWritten {i : Instr} {s t : State} (e : Effect i s t) : CondWritten s t i.destination := by
  cases e with
  | writeBack dr v hi _ => rw [hi]; exact writeBack_cond _ dr v
  | store _ _ hi g => rw [hi]; exact g.cond
  | jump _ hi | call _ hi | nothing hi => rw [hi]; rfl
  | trap hi e => rw [hi]; exact e.cond

/-- Settles O48: an instruction by its destination; a step that is no cycle ends a wait by a write-back to R0, or leaves
the phase and COND alone. -/
theorem condIsWrittenOnlyByFlagUpdaters : Obligations.CondIsWrittenOnlyByFlagUpdaters := by
  refine ⟨fun i s t h => ?_, fun s t h hn => ?_⟩
  · have e := (exec_effect h).condWritten
    cases i <;> exact e
  · obtain ⟨-, ⟨c, rest, -, rfl⟩ | ⟨rest, -, -, rfl⟩ | ⟨k, -, rfl⟩ | ⟨hc, -⟩ | ⟨c, rest, -, hp, -, rfl⟩ |
      ⟨c, rest, -, hp, -, rfl⟩⟩ := step_cases h
    · exact .inr ⟨rfl, rfl⟩
    · exact .inr ⟨rfl, rfl⟩
    · obtain ⟨-, hphase, -, hcond, -⟩ := strRoutine_keeps k s.takeTurn
      exact .inr ⟨hphase, hcond⟩
    · exact absurd hc hn
    · exact .inl ⟨by simp [hp], rfl, writeBack_cond _ 0 (zext16 c)⟩
    · exact .inl ⟨by simp [hp], rfl, writeBack_cond _ 0 (zext16 c)⟩

/-! ## The cycle (R71) -/

/-- A cycle executes the word read at `pc` in the state that the read leaves, with `pc` incremented. -/
theorem cycle_eq_exec (s : State) :
    cycle s = exec (decode (s.memRead s.pc).1) ((s.memRead s.pc).2.setPc (s.pc + 1)) := by
  rw [cycle, fetch, add16_eq, (s.memRead_gateOf s.pc).pc]

/-- Settles O40: the cycle of the CORE on its turn, by any fetch and by a fetch away from `KBSR_ADDR`. -/
theorem stepExecutesTheDecodedWord : Obligations.StepExecutesTheDecodedWord := by
  intro s h
  rw [step_of_cycleNext h]
  exact ⟨cycle_eq_exec s.takeTurn, fun hpc => cycle_of_ne (s := s.takeTurn) hpc⟩

/-! ## A step in each state (R70, R73, R76, R77) -/

/-- Settles O43: whatever an instruction's effect, it has one. -/
theorem everyInstructionCompletesInEveryState : Obligations.EveryInstructionCompletesInEveryState := by
  intro i s
  obtain ⟨t, ht, -⟩ := exec_eq_next i s
  exact ⟨t, ht⟩

theorem step_of_halted {s : State} (h : s.run = .halted) : step s = .fault .halted := by
  simp [step, h]

theorem step_of_key_turn {s : State} {c : Byte} {rest : List Turn} (hr : s.run = .running)
    (hs : s.schedule = .key c :: rest) : step s = .next ((s.setSchedule rest).keyArrive c) := by
  simp [step, hr, runStep, hs]

/-- A core turn passes in the hold. -/
theorem step_of_holding_core_turn {s : State} {rest : List Turn} (hr : s.run = .running) (hh : s.holding = true)
    (hs : s.schedule = .core :: rest) : step s = .next (s.setSchedule rest) := by
  simp [step, hr, runStep, hs, hh]

theorem step_of_holding_no_turn {s : State} (hr : s.run = .running) (hh : s.holding = true)
    (hs : s.schedule = []) : step s = .fault .hold := by
  simp [step, hr, runStep, hs, coreStep_of_holding hh]

/-- Outside the hold the CORE has a step on its turn. -/
theorem exists_step_of_core_turn {s : State} (hr : s.run = .running)
    (ht : s.schedule = [] ∨ s.schedule.head? = some .core) (hh : s.holding = false) : ∃ t, step s = .next t := by
  rw [step_of_core_turn hr ht hh]
  obtain ⟨k, -, e⟩ | ⟨-, -, e⟩ | ⟨c, rest, -, -, -, e⟩ | ⟨c, rest, -, -, -, e⟩ :=
    coreStep_of_not_holding (s := s.takeTurn) hh
  · exact ⟨_, e⟩
  · rw [e]
    exact everyInstructionCompletesInEveryState _ _
  · exact ⟨_, e⟩
  · exact ⟨_, e⟩

/-- Settles O44: by the run flag, the next turn, and whether the CORE holds. -/
theorem onlyHaltAndTheHoldHaveNoStep : Obligations.OnlyHaltAndTheHoldHaveNoStep := by
  intro s
  cases hr : s.run with
  | halted => exact .inr (.inl ⟨step_of_halted hr, rfl⟩)
  | running =>
    cases hs : s.schedule with
    | nil =>
      cases hh : s.holding with
      | true =>
        obtain ⟨hw, hp, hk⟩ := s.holding_iff.1 hh
        exact .inr (.inr ⟨step_of_holding_no_turn hr hh hs, rfl, hp, hw, hk, rfl⟩)
      | false => exact .inl ⟨exists_step_of_core_turn hr (.inl hs) hh, rfl⟩
    | cons turn rest =>
      refine .inl ⟨?_, rfl⟩
      cases turn with
      | key c => exact ⟨_, step_of_key_turn hr hs⟩
      | core =>
        cases hh : s.holding with
        | true => exact ⟨_, step_of_holding_core_turn hr hh hs⟩
        | false => exact exists_step_of_core_turn hr (.inr (by simp [hs])) hh

/-- Settles O45: such a wait is the hold, and the step there is by the next turn, if there is one. -/
theorem blockedRoutineHoldsUntilAKeystroke : Obligations.BlockedRoutineHoldsUntilAKeystroke := by
  intro s hr hw hp hk
  have hphase : s.phase ≠ .none := by rcases hp with hp | hp <;> simp [hp]
  have hh : s.holding = true := s.holding_iff.2 ⟨hw, hphase, hk⟩
  refine ⟨step_of_holding_no_turn hr hh, fun rest => step_of_holding_core_turn hr hh, fun c rest hs => ?_⟩
  rw [step_of_key_turn hr hs, State.keyArrive, State.setSchedule, hk]
  rfl

end Sys2Proof.Machine
end

section
/-! PROOFS of the operate instructions (R80 to R84): the words of each by the named fields they carry, the result by the
shared write-back. -/

namespace Sys2Proof

/-- A register form of ADD or AND carries its fields, whatever stands in ir[4:3]. -/
theorem Instr.fieldsIn_registerForm {i : Instr} {op : BitVec 4} {dr sr1 sr2 : BitVec 3}
    (hi : i.fields = [⟨12, 4, op⟩, ⟨9, 3, dr⟩, ⟨6, 3, sr1⟩, ⟨5, 1, 0b0⟩, ⟨0, 3, sr2⟩]) (ign : BitVec 2) :
    i.FieldsIn (op ++ dr ++ sr1 ++ 0b0#1 ++ ign ++ sr2) := by
  simp (disch := decide) only [FieldsIn, hi, NamedField.In, List.forall_mem_cons,
    BitVec.extractLsb'_append_eq_of_add_le, BitVec.extractLsb'_append_eq_of_le]
  simp

/-- A word of NOT carries its fields, whatever stands in ir[5:0]. -/
theorem Instr.fieldsIn_notReg (dr sr : BitVec 3) (ign : BitVec 6) :
    (Instr.notReg (.ofBits dr) (.ofBits sr)).FieldsIn (0b1001#4 ++ dr ++ sr ++ ign) := by
  simp (disch := decide) only [FieldsIn, fields, NamedField.In, List.forall_mem_cons,
    BitVec.extractLsb'_append_eq_of_add_le, BitVec.extractLsb'_append_eq_of_le]
  simp

end Sys2Proof

namespace Sys2Proof.Machine

/-- Settles O8: the fields fix the instruction, and the result is written back over both sources as they were read. -/
theorem addRegisterForm : Obligations.AddRegisterForm :=
  ⟨fun _ _ _ ign => decode_of_fieldsIn rfl (Instr.fieldsIn_registerForm rfl ign),
   fun dr _ _ s => ⟨_, rfl, writeBack_writesResult dr _ s⟩⟩

/-- Settles O9: the word is the encoder's, and `sext` is the library's `signExtend`. -/
theorem addImmediateForm : Obligations.AddImmediateForm :=
  ⟨fun dr sr1 imm5 => decodeOfEncodeIsTheInstruction (.addImm (.ofBits dr) (.ofBits sr1) imm5) rfl,
   fun dr _ _ s => ⟨_, rfl, writeBack_writesResult dr _ s⟩⟩

/-- Settles O10: as O8, with AND for the sum. -/
theorem andRegisterForm : Obligations.AndRegisterForm :=
  ⟨fun _ _ _ ign => decode_of_fieldsIn rfl (Instr.fieldsIn_registerForm rfl ign),
   fun dr _ _ s => ⟨_, rfl, writeBack_writesResult dr _ s⟩⟩

/-- Settles O11: as O9, with AND for the sum. -/
theorem andImmediateForm : Obligations.AndImmediateForm :=
  ⟨fun dr sr1 imm5 => decodeOfEncodeIsTheInstruction (.andImm (.ofBits dr) (.ofBits sr1) imm5) rfl,
   fun dr _ _ s => ⟨_, rfl, writeBack_writesResult dr _ s⟩⟩

/-- Settles O12: the fields fix the instruction, and taking a word from the one of sixteen ones borrows nothing, so it is
the complement. -/
theorem notComplementsTheRegister : Obligations.NotComplementsTheRegister := by
  refine ⟨fun dr sr ign => decode_of_fieldsIn rfl (Instr.fieldsIn_notReg dr sr ign), fun dr sr s => ⟨_, rfl, ?_⟩⟩
  have hnot : (0xFFFF - s.reg sr : Word) = ~~~ (s.reg sr) := BitVec.allOnes_sub_eq_not _
  rw [hnot]
  exact writeBack_writesResult dr _ s

end Sys2Proof.Machine
end

section
/-! PROOFS of the loads, the stores and LEA (R90 to R96): each word is the encoder's, each address is the sum of the
statement, and the access is the shared load, store or write-back. -/

namespace Sys2Proof.Machine

/-! ## An access in the state a gated read leaves -/

/-- A load in the state the gate leaves meets the frame of the state before it: all that the gate may change, memory and the
keyboard queue, the frame compares with the read and not with `s`. -/
theorem LoadsResult.of_gateOf {dr : Reg} {read : Word × State} {s u t : State} (g : s.GateOf u)
    (h : LoadsResult dr read u t) : LoadsResult dr read s t := by
  obtain ⟨hval, hcond, hregs, hpc, hmem, hkbd, hout, hrun, hphase, hwalk, hschedule, hcfg⟩ := h
  exact ⟨hval, hcond, fun r hr => (hregs r hr).trans (g.reg r), hpc.trans g.pc, hmem, hkbd, hout.trans g.out,
    hrun.trans g.run, hphase.trans g.phase, hwalk.trans g.walk, hschedule.trans g.schedule, hcfg.trans g.cfg⟩

/-- LDI's two reads in order, then the write-back. -/
theorem loadTo_after_memRead_loadsResult (dr : Reg) (ea : Word) (s : State) :
    LoadsResult dr ((s.memRead ea).2.memRead (s.memRead ea).1) s ((s.memRead ea).2.loadTo dr (s.memRead ea).1) :=
  (loadTo_loadsResult dr _ _).of_gateOf (s.memRead_gateOf ea)

/-- STI's access: the word stored is the source register's from before the pointer read, since the gate writes no register. -/
theorem memWrite_after_memRead_storesWord (sr : Reg) (ea : Word) (s : State) :
    StoresWord (s.memRead ea).1 (s.reg sr) (s.memRead ea).2
      ((s.memRead ea).2.memWrite (s.memRead ea).1 ((s.memRead ea).2.reg sr)) := by
  rw [(s.memRead_gateOf ea).reg sr]
  exact writeStoresOneWordAndIsNeverIntercepted _ _ _

/-! ## Loads -/

/-- Settles O13: the shared load at the PC-relative address, through the gate and away from it. -/
theorem loadPcRelative : Obligations.LoadPcRelative :=
  ⟨fun dr off => decodeOfEncodeIsTheInstruction (.ld (.ofBits dr) off) rfl,
   fun dr _ s => ⟨_, rfl, loadTo_loadsResult dr _ s, loadTo_writesResult dr⟩⟩

/-- Settles O14: the shared load at the base-relative address; the base is read before `dr` is written. -/
theorem loadBaseAndOffset : Obligations.LoadBaseAndOffset :=
  ⟨fun dr baseR off => decodeOfEncodeIsTheInstruction (.ldr (.ofBits dr) (.ofBits baseR) off) rfl,
   fun dr _ _ s => ⟨_, rfl, loadTo_loadsResult dr _ s, loadTo_writesResult dr⟩⟩

/-- Settles O15: the pointer read, then the shared load; away from `KBSR_ADDR` the pointer read leaves the state alone. -/
theorem loadIndirect : Obligations.LoadIndirect := by
  refine ⟨fun dr off => decodeOfEncodeIsTheInstruction (.ldi (.ofBits dr) off) rfl, fun dr off s =>
    ⟨_, rfl, loadTo_after_memRead_loadsResult dr (s.eaPc9 off) s, fun (hea : s.eaPc9 off ≠ _) hpointer => ?_⟩⟩
  rw [State.memRead_of_ne hea]
  exact loadTo_writesResult dr hpointer

/-! ## Stores -/

/-- Settles O16: the storage write at the PC-relative address. -/
theorem storePcRelative : Obligations.StorePcRelative :=
  ⟨fun sr off => decodeOfEncodeIsTheInstruction (.st (.ofBits sr) off) rfl,
   fun _ _ s => ⟨_, rfl, writeStoresOneWordAndIsNeverIntercepted s _ _⟩⟩

/-- Settles O17: the storage write at the base-relative address. -/
theorem storeBaseAndOffset : Obligations.StoreBaseAndOffset :=
  ⟨fun sr baseR off => decodeOfEncodeIsTheInstruction (.str (.ofBits sr) (.ofBits baseR) off) rfl,
   fun _ _ _ s => ⟨_, rfl, writeStoresOneWordAndIsNeverIntercepted s _ _⟩⟩

/-- Settles O18: the pointer read, then the storage write; what the write leaves alone the gate left alone too, and away from
`KBSR_ADDR` the read leaves all. -/
theorem storeIndirect : Obligations.StoreIndirect := by
  refine ⟨fun sr off => decodeOfEncodeIsTheInstruction (.sti (.ofBits sr) off) rfl, fun sr off s => ?_⟩
  have g := s.memRead_gateOf (s.eaPc9 off)
  have stored := memWrite_after_memRead_storesWord sr (s.eaPc9 off) s
  refine ⟨_, rfl, ⟨stored, fun r _ => g.reg r, g.cond, g.pc, g.out, g.modeKept⟩, fun (hea : s.eaPc9 off ≠ _) => ?_⟩
  rw [State.memRead_of_ne hea] at stored ⊢
  exact stored

/-! ## LEA -/

/-- Settles O19: the shared write-back of the address itself. -/
theorem loadEffectiveAddress : Obligations.LoadEffectiveAddress :=
  ⟨fun dr off => decodeOfEncodeIsTheInstruction (.lea (.ofBits dr) off) rfl,
   fun dr _ s => ⟨_, rfl, writeBack_writesResult dr _ s⟩⟩

end Sys2Proof.Machine
end

section
/-! PROOFS of the control transfers (R100 to R103): the words by the named fields they carry, the jump by the one write of
`pc`, the call by the link and that write, and BR by the bit of its mask that each flag's number is. -/

namespace Sys2Proof

/-- A word of JMP carries its fields, whatever stands in ir[11:9] and ir[5:0]. -/
theorem Instr.fieldsIn_jmp (ignHi baseR : BitVec 3) (ignLo : BitVec 6) :
    (Instr.jmp (.ofBits baseR)).FieldsIn (0b1100#4 ++ ignHi ++ baseR ++ ignLo) := by
  simp (disch := decide) only [FieldsIn, fields, NamedField.In, List.forall_mem_cons,
    BitVec.extractLsb'_append_eq_of_add_le, BitVec.extractLsb'_append_eq_of_le]
  simp

/-- A word of JSRR carries its fields, whatever stands in ir[10:9] and ir[5:0]. -/
theorem Instr.fieldsIn_jsrr (ignHi : BitVec 2) (baseR : BitVec 3) (ignLo : BitVec 6) :
    (Instr.jsrr (.ofBits baseR)).FieldsIn (0b0100#4 ++ 0b0#1 ++ ignHi ++ baseR ++ ignLo) := by
  simp (disch := decide) only [FieldsIn, fields, NamedField.In, List.forall_mem_cons,
    BitVec.extractLsb'_append_eq_of_add_le, BitVec.extractLsb'_append_eq_of_le]
  simp

end Sys2Proof

namespace Sys2Proof.Machine

/-! ## The write of `pc`, alone and after the link -/

theorem setPc_jumpsTo (target : Word) (s : State) : JumpsTo target s (s.setPc target) :=
  ⟨rfl, fun _ _ => rfl, rfl, fun _ _ => rfl, ⟨rfl, rfl⟩, rfl, rfl, rfl, rfl, rfl⟩

theorem link_setPc_callsTo (target : Word) (s : State) : CallsTo target s (s.link.setPc target) :=
  ⟨State.reg_setReg_self s 7 s.pc, rfl, RegsKept.setReg s 7 s.pc, rfl, fun _ _ => rfl, ⟨rfl, rfl⟩, rfl, rfl, rfl, rfl, rfl⟩

/-! ## BR's test -/

/-- R100 with R14 (D2): each flag's number is one bit, and the mask matches when it has that bit. -/
theorem condMatches_iff {mask : BitVec 3} {c : Cond} : condMatches mask c = true ↔
    (mask.getLsbD 2 = true ∧ c = .neg) ∨ (mask.getLsbD 1 = true ∧ c = .zero) ∨ (mask.getLsbD 0 = true ∧ c = .pos) := by
  cases c with
  | neg | zero | pos => revert mask; decide

/-! ## The four instructions -/

/-- Settles O20: by BR's test, which the statement's two clauses write out. -/
theorem branchIsTakenWhenTheMaskMatches : Obligations.BranchIsTakenWhenTheMaskMatches := by
  refine ⟨fun cond off => decodeOfEncodeIsTheInstruction (.br cond off) rfl, fun mask off s => ⟨_, rfl, ?_⟩⟩
  rw [← condMatches_iff]
  constructor
  · intro taken
    rw [if_pos taken]
    exact setPc_jumpsTo _ s
  · intro notTaken
    exact if_neg notTaken

/-- Settles O21: the fields fix the instruction, and the jump reads its target before it writes `pc`. -/
theorem jumpGoesToTheRegister : Obligations.JumpGoesToTheRegister :=
  ⟨fun ignHi baseR ignLo => decode_of_fieldsIn rfl (Instr.fieldsIn_jmp ignHi baseR ignLo),
   fun _ s => ⟨_, rfl, setPc_jumpsTo _ s⟩⟩

/-- Settles O22: the word is the encoder's, and the target is relative to the `pc` that is linked. -/
theorem callPcRelative : Obligations.CallPcRelative :=
  ⟨fun off => decodeOfEncodeIsTheInstruction (.jsr off) rfl, fun _ s => ⟨_, rfl, link_setPc_callsTo _ s⟩⟩

/-- Settles O23: the fields fix the instruction, and the base is read after the link, so that R7 reads as the linked `pc`
(D15). -/
theorem callThroughRegister : Obligations.CallThroughRegister := by
  refine ⟨fun ignHi baseR ignLo => decode_of_fieldsIn rfl (Instr.fieldsIn_jsrr ignHi baseR ignLo),
    fun baseR s => ⟨_, rfl, ?_⟩⟩
  have target : s.link.reg baseR = if baseR = 7 then s.pc else s.reg baseR := State.reg_setReg s 7 baseR s.pc
  rw [← target]
  exact link_setPc_callsTo _ s

end Sys2Proof.Machine
end

section
/-! PROOFS of TRAP and of its routines GETC, OUT, IN and HALT (R110 to R112, R114, R116, R117): the words by the vector
they carry, each routine by its own updates after the link, and the end of a wait by the shared write-back to R0. -/

namespace Sys2Proof.Machine

/-! ## The words of TRAP -/

/-- A word of TRAP decodes by its vector alone, whatever stands in ir[11:8] (R55, R110). -/
theorem decode_trapWord (ign : BitVec 4) (vector : BitVec 8) :
    decode (0b1111#4 ++ ign ++ vector) = decodeTrap vector := by
  refine decode_of_fieldsIn (decodeTrap_wf vector) ?_
  simp (disch := decide) only [Instr.FieldsIn, fields_decodeTrap, NamedField.In, List.forall_mem_cons,
    BitVec.extractLsb'_append_eq_of_add_le, BitVec.extractLsb'_append_eq_of_le]
  simp

/-- The statement's reading of a vector without a routine is the model's (R56). -/
theorem vectorHasNoRoutine_of_lt_or_lt {vector : BitVec 8} (h : vector < 0x20 ∨ 0x25 < vector) :
    vectorHasNoRoutine vector = true := by
  simpa [vectorHasNoRoutine] using h

/-! ## The dispatch -/

/-- R0, which OUT and the string routines read, is not the link register. -/
theorem State.trapEntry_reg_zero (s : State) : s.trapEntry.reg 0 = s.reg 0 :=
  State.reg_setReg_of_ne (by decide) s s.pc

/-- Settles O24: the dispatcher, after the link, does what the constructor of the vector does, or nothing. -/
theorem trapLinksAndDispatchesOnTheVector : Obligations.TrapLinksAndDispatchesOnTheVector := by
  refine ⟨decode_trapWord, fun vector s => ?_, fun s => ⟨rfl, rfl, rfl, rfl, rfl, rfl⟩, fun vector s h => ?_⟩
  · have routine := trapDispatch_dispatched vector s.trapEntry
    exact ⟨_, rfl, (routine.reg 7).trans (State.reg_setReg_self s 7 s.pc), routine.pc⟩
  · refine ⟨_, rfl, ?_⟩
    rw [trapDispatch_of_noRoutine (vectorHasNoRoutine_of_lt_or_lt h)]
    exact link_setPc_callsTo s.pc s

/-! ## OUT and HALT -/

/-- Settles O26: the link, then one byte of output. -/
theorem outAppendsTheLowByteOfR0 : Obligations.OutAppendsTheLowByteOfR0 := by
  refine ⟨fun ign => decode_trapWord ign 0x21#8, fun s => ⟨_, rfl, ?_, rfl, State.reg_setReg_self s 7 s.pc,
    RegsKept.setReg s 7 s.pc, rfl, rfl, fun _ _ => rfl, rfl, rfl, rfl, rfl, rfl⟩⟩
  rw [← low_byte_eq, ← s.trapEntry_reg_zero]
  rfl

/-- Settles O28: the link, then the notice and the stop. -/
theorem haltEmitsTheNoticeAndStops : Obligations.HaltEmitsTheNoticeAndStops :=
  ⟨fun ign => decode_trapWord ign 0x25#8, fun s => ⟨_, rfl, rfl, rfl, rfl, State.reg_setReg_self s 7 s.pc,
    RegsKept.setReg s 7 s.pc, rfl, rfl, fun _ _ => rfl, rfl, rfl, rfl, rfl⟩⟩

/-! ## GETC and IN -/

theorem State.not_holding_of_pending {s : State} {c : Byte} {rest : List Byte} (hk : s.kbd = c :: rest) :
    s.holding = false := by
  refine Bool.eq_false_iff.2 fun h => ?_
  obtain ⟨-, -, hnil⟩ := s.holding_iff.1 h
  cases hk.symm.trans hnil

/-- With a character pending the CORE's turn ends the wait of GETC (R73, R111). -/
theorem step_of_getcWait {s : State} {c : Byte} {rest : List Byte} (hr : s.run = .running) (hw : s.walk = none)
    (hp : s.phase = .getcWait) (hk : s.kbd = c :: rest) (ht : s.schedule = [] ∨ s.schedule.head? = some .core) :
    step s = .next (getcComplete c rest s.takeTurn) := by
  rw [step_of_core_turn hr ht (State.not_holding_of_pending hk)]
  simp [coreStep, State.takeTurn, hw, hp, hk]

/-- The same for IN (R73, R114). -/
theorem step_of_inWait {s : State} {c : Byte} {rest : List Byte} (hr : s.run = .running) (hw : s.walk = none)
    (hp : s.phase = .inWait) (hk : s.kbd = c :: rest) (ht : s.schedule = [] ∨ s.schedule.head? = some .core) :
    step s = .next (inComplete c rest s.takeTurn) := by
  rw [step_of_core_turn hr ht (State.not_holding_of_pending hk)]
  simp [coreStep, State.takeTurn, hw, hp, hk]

/-- A character written back is in R0, and COND tells whether it is zero. -/
theorem writeBack_char (s : State) (c : Byte) : (s.writeBack 0 (zext16 c)).reg 0 = zext16 c ∧
    (s.writeBack 0 (zext16 c)).cond = if c = 0x00 then .zero else .pos := by
  simp [signOf_char]

/-- Settles O25: the link and the wait; then the write-back of the character taken. -/
theorem getcReadsOneCharacterIntoR0 : Obligations.GetcReadsOneCharacterIntoR0 := by
  refine ⟨fun ign => decode_trapWord ign 0x20#8, fun s => ⟨_, rfl, rfl, State.reg_setReg_self s 7 s.pc,
    RegsKept.setReg s 7 s.pc, rfl, rfl, fun _ _ => rfl, ⟨rfl, rfl⟩, rfl, rfl, rfl, rfl⟩,
    fun s c rest hr hw hp hk ht => ⟨_, step_of_getcWait hr hw hp hk ht, ?_⟩⟩
  obtain ⟨hreg, hcond⟩ := writeBack_char { s.takeTurn with kbd := rest } c
  exact ⟨hreg, hcond, rfl, rfl, rfl, getcComplete_regsKept c rest s.takeTurn, rfl, fun _ _ => rfl, hr, hw, rfl, rfl⟩

/-- Settles O27: the link, the prompt and the wait; then the echo and the write-back of the character taken. -/
theorem inPromptsThenEchoesOneCharacter : Obligations.InPromptsThenEchoesOneCharacter := by
  refine ⟨fun ign => decode_trapWord ign 0x23#8, fun s => ⟨_, rfl, rfl, rfl, rfl, State.reg_setReg_self s 7 s.pc,
    RegsKept.setReg s 7 s.pc, rfl, rfl, fun _ _ => rfl, rfl, rfl, rfl, rfl⟩,
    fun s c rest hr hw hp hk ht => ⟨_, step_of_inWait hr hw hp hk ht, ?_⟩⟩
  obtain ⟨hreg, hcond⟩ := writeBack_char (({ s.takeTurn with kbd := rest } : State).outByte c) c
  exact ⟨hreg, hcond, rfl, rfl, rfl, inComplete_regsKept c rest s.takeTurn, rfl, fun _ _ => rfl, hr, hw, rfl, rfl⟩

end Sys2Proof.Machine
end

section
/-! PROOFS of the string routines PUTS and PUTSP (R113, R115, R120): their frame, the bytes of the words read before the
first zero word, and the laps of a string past the gate that has none. -/

namespace Sys2Proof.Machine

/-! ## The frame -/

/-- Both instructions are the link and a string routine. -/
theorem exec_string {i : Instr} (hi : i ∈ [Instr.puts, Instr.putsp]) :
    ∃ k, ∀ s : State, exec i s = .next (strRoutine k s.trapEntry) := by
  obtain rfl | rfl : i = .puts ∨ i = .putsp := by simpa using hi
  · exact ⟨.puts, fun _ => rfl⟩
  · exact ⟨.putsp, fun _ => rfl⟩

theorem strRoutine_kept_of_ungated (k : StrRoutine) {s : State} (h : s.cfg.trapReadsGated = false) :
    MemKept [] s (strRoutine k s) ∧ (strRoutine k s).kbd = s.kbd := by
  obtain ⟨bs, e⟩ := strRoutine_of_ungated k h
  rw [e]
  exact ⟨fun _ _ => rfl, rfl⟩

/-- Settles O29: the link, then what a string routine keeps, through the gate and past it. -/
theorem stringRoutinesWriteOnlyR7AndTheLog : Obligations.StringRoutinesWriteOnlyR7AndTheLog := by
  intro i hi s
  obtain ⟨k, hexec⟩ := exec_string hi
  obtain ⟨hrun, hphase, hpc, hcond, hcfg, hschedule, hreg, -, hout, hkbd⟩ := strRoutine_keeps k s.trapEntry
  refine ⟨_, hexec s, (hreg 7).trans (State.reg_setReg_self s 7 s.pc),
    fun r hr => (hreg r).trans (RegsKept.setReg s 7 s.pc r hr), hpc, hcond, hrun, hphase, hschedule, hcfg, hout, hkbd,
    strRoutine_memKept k s.trapEntry, fun hwalk => ?_, strRoutine_kept_of_ungated k (s := s.trapEntry)⟩
  exact Bool.eq_false_iff.2 fun hg => hwalk (strRoutine_walk_of_gated k (s := s.trapEntry) hg)

/-- Settles O32: every gated walk meets a zero word. -/
theorem gatedStringRoutinesAlwaysEnd : Obligations.GatedStringRoutinesAlwaysEnd := by
  intro i hi s hg
  obtain ⟨k, hexec⟩ := exec_string hi
  exact ⟨_, hexec s, strRoutine_walk_of_gated k (s := s.trapEntry) hg⟩

/-! ## String reads look at no register -/

section
variable (s : State) (i : Reg) (v a : Word)

theorem State.poll_setReg : (s.setReg i v).poll = s.poll.setReg i v := by
  cases h : s.kbd with
  | nil => rw [State.poll_of_nil h, State.poll_of_nil (s := s.setReg i v) h]; rfl
  | cons c rest => rw [State.poll_of_cons h, State.poll_of_cons (s := s.setReg i v) h]; rfl

theorem State.gate_setReg : (s.setReg i v).gate a = (s.gate a).setReg i v := by
  unfold State.gate
  rw [State.poll_setReg, State.setReg_cfg]
  split <;> rfl

theorem State.stringRead_setReg :
    (s.setReg i v).stringRead a = ((s.stringRead a).1, (s.stringRead a).2.setReg i v) := by
  unfold State.stringRead State.memRead
  rw [State.gate_setReg, State.setReg_cfg]
  split <;> rfl

theorem State.afterReads_setReg (n : Nat) : (s.setReg i v).afterReads a n = (s.afterReads a n).setReg i v := by
  induction n with
  | zero => rfl
  | succ n ih => rw [State.afterReads, ih, State.stringRead_setReg]; rfl

theorem State.readWord_setReg (n : Nat) : (s.setReg i v).readWord a n = s.readWord a n := by
  rw [State.readWord, State.afterReads_setReg, State.stringRead_setReg]; rfl

theorem State.afterReads_trapEntry (n : Nat) : s.trapEntry.afterReads a n = (s.afterReads a n).setReg 7 s.pc :=
  s.afterReads_setReg 7 s.pc a n

theorem State.readWord_trapEntry (n : Nat) : s.trapEntry.readWord a n = s.readWord a n :=
  s.readWord_setReg 7 s.pc a n

theorem State.readBytes_trapEntry (emit : Word → List Byte) (n : Nat) :
    s.trapEntry.readBytes emit n = s.readBytes emit n := by
  simp only [State.readBytes, State.trapEntry_reg_zero, State.readWord_trapEntry]

end

/-! ## The words read -/

/-- Less than a lap before an address a string does not read it. -/
theorem add_ofNat_ne_of_lt {a k : Word} {j n : Nat} (hj : j < n) (hn : n < 65536) (h : a + BitVec.ofNat 16 n = k) :
    a + BitVec.ofNat 16 j ≠ k := by
  intro h'
  have e : BitVec.ofNat 16 j = BitVec.ofNat 16 n := (add_right_inj a).1 (h'.trans h.symm)
  have := congrArg BitVec.toNat e
  simp only [BitVec.toNat_ofNat] at this
  omega

/-- The bytes of words read of plain memory are those of the words it holds. -/
theorem State.readBytes_of_plain (emit : Word → List Byte) {s : State} {n : Nat}
    (hplain : s.cfg.trapReadsGated = true → ∀ j < n, s.reg 0 + BitVec.ofNat 16 j ≠ s.cfg.kbsrAddr) :
    s.readBytes emit n = s.storedBytes emit n := by
  refine List.flatMap_congr fun j hj => ?_
  have hj : j < n := List.mem_range.1 hj
  rw [State.readWord_of_plain fun hg l hl => hplain hg l (by omega)]

/-- The bytes of one more word. -/
theorem State.readBytes_succ (emit : Word → List Byte) (s : State) (n : Nat) :
    s.readBytes emit (n + 1) = s.readBytes emit n ++ emit (s.readWord (s.reg 0) n) := by
  simp only [State.readBytes, List.range_succ, List.flatMap_append, List.flatMap_singleton]

/-! ## What the instruction emits: the clauses of `EmitsString` -/

section
variable (k : StrRoutine) {n : Nat} {s : State}

/-- Clause 1: the routine ends at the first zero word it reads. -/
theorem strRoutine_trapEntry_of_reads (hread : ∀ j < n, s.readWord (s.reg 0) j ≠ 0x0000)
    (hzero : s.readWord (s.reg 0) n = 0x0000) :
    (strRoutine k s.trapEntry).walk = none ∧
    (strRoutine k s.trapEntry).out = s.out ++ s.readBytes (strEmit k) n ∧
    MemKept [] (s.afterReads (s.reg 0) (n + 1)) (strRoutine k s.trapEntry) ∧
    (strRoutine k s.trapEntry).kbd = (s.afterReads (s.reg 0) (n + 1)).kbd := by
  have ends := strRoutine_of_reads k (n := n) (s := s.trapEntry)
  simp only [State.trapEntry_reg_zero, State.readWord_trapEntry, State.afterReads_trapEntry] at ends
  rw [ends hread hzero]
  exact ⟨rfl, congrArg (· ++ _) (s.afterReads_gateOf _ _).out, fun _ _ => rfl, rfl⟩

/-- Words that are not zero are emitted, and after them the routine only adds to the log and takes pending keys. -/
theorem strRoutine_trapEntry_of_nonzero_reads (hn : n ≤ walkBound s)
    (hread : ∀ j < n, s.readWord (s.reg 0) j ≠ 0x0000) :
    ∃ more, (strRoutine k s.trapEntry).out = s.out ++ s.readBytes (strEmit k) n ++ more ∧
      (strRoutine k s.trapEntry).kbd <:+ (s.afterReads (s.reg 0) n).kbd := by
  obtain ⟨m, hm⟩ : ∃ m, walkBound s.trapEntry = n + m := Nat.exists_eq_add_of_le hn
  have split := strWalk_split k n m (s.reg 0) s.trapEntry
  simp only [State.readWord_trapEntry, State.afterReads_trapEntry] at split
  obtain ⟨more, g⟩ := strWalk_gateOf k m (s.reg 0 + BitVec.ofNat 16 n)
    (((s.afterReads (s.reg 0) n).setReg 7 s.pc).outBytes (s.readBytes (strEmit k) n))
  rw [strRoutine_eq, State.trapEntry_reg_zero, hm, split hread]
  refine ⟨more, g.out.trans ?_, g.kbd⟩
  exact congrArg (· ++ _ ++ more) (s.afterReads_gateOf _ _).out

/-- Clause 2: in plain memory the words read are memory's, and the reads change nothing. -/
theorem strRoutine_trapEntry_of_plain (hnz : ∀ j < n, s.word (s.reg 0 + BitVec.ofNat 16 j) ≠ 0x0000)
    (hz : s.word (s.reg 0 + BitVec.ofNat 16 n) = 0x0000)
    (hplain : s.cfg.trapReadsGated = true → ∀ j ≤ n, s.reg 0 + BitVec.ofNat 16 j ≠ s.cfg.kbsrAddr) :
    (strRoutine k s.trapEntry).walk = none ∧
    (strRoutine k s.trapEntry).out = s.out ++ s.storedBytes (strEmit k) n ∧
    MemKept [] s (strRoutine k s.trapEntry) ∧ (strRoutine k s.trapEntry).kbd = s.kbd := by
  have stored (j : Nat) (hj : j ≤ n) : s.readWord (s.reg 0) j = s.word (s.reg 0 + BitVec.ofNat 16 j) :=
    State.readWord_of_plain fun hg l hl => hplain hg l (hl.trans hj)
  have ends := strRoutine_trapEntry_of_reads k (fun j hj => by rw [stored j hj.le]; exact hnz j hj)
    ((stored n le_rfl).trans hz)
  rwa [State.readBytes_of_plain _ fun hg j hj => hplain hg j hj.le,
    State.afterReads_of_plain fun hg j hj => hplain hg j (Nat.le_of_lt_succ hj)] at ends

/-! Clause 3: nonzero words up to `KBSR_ADDR`, which the gate polls. -/

variable (hnz : ∀ j < n, s.word (s.reg 0 + BitVec.ofNat 16 j) ≠ 0x0000)
  (hplain : ∀ j < n, s.reg 0 + BitVec.ofNat 16 j ≠ s.cfg.kbsrAddr)

include hnz hplain in
theorem State.readWord_ne_zero_of_plain : ∀ j < n, s.readWord (s.reg 0) j ≠ 0x0000 := by
  intro j hj
  rw [State.readWord_of_plain fun _ l hl => hplain l (hl.trans_lt hj)]
  exact hnz j hj

include hplain in
/-- The read of `KBSR_ADDR` polls the state as it is: the reads before it leave it alone. -/
theorem State.stringRead_at_status (hg : s.cfg.trapReadsGated = true)
    (hstatus : s.reg 0 + BitVec.ofNat 16 n = s.cfg.kbsrAddr) :
    s.readWord (s.reg 0) n = (s.memRead s.cfg.kbsrAddr).1 ∧
    s.afterReads (s.reg 0) (n + 1) = (s.memRead s.cfg.kbsrAddr).2 := by
  have read : (s.afterReads (s.reg 0) n).stringRead (s.reg 0 + BitVec.ofNat 16 n) = s.memRead s.cfg.kbsrAddr := by
    rw [State.afterReads_of_plain fun _ => hplain, State.stringRead_eq, State.strRead_of_gated hg, hstatus]
  exact ⟨congrArg Prod.fst read, congrArg Prod.snd read⟩

include hnz hplain in
/-- With nothing pending the string ends there. -/
theorem strRoutine_trapEntry_at_status_of_nil (hg : s.cfg.trapReadsGated = true)
    (hstatus : s.reg 0 + BitVec.ofNat 16 n = s.cfg.kbsrAddr) (hk : s.kbd = []) :
    (strRoutine k s.trapEntry).walk = none ∧
    (strRoutine k s.trapEntry).out = s.out ++ s.storedBytes (strEmit k) n ∧
    (strRoutine k s.trapEntry).word s.cfg.kbsrAddr = 0x0000 ∧
    MemKept [s.cfg.kbsrAddr] s (strRoutine k s.trapEntry) ∧ (strRoutine k s.trapEntry).kbd = [] := by
  obtain ⟨hword, hafter⟩ := State.stringRead_at_status hplain hg hstatus
  rw [State.memRead_kbsr_of_nil hk] at hword hafter
  obtain ⟨hwalk, hout, hmem, hkbd⟩ :=
    strRoutine_trapEntry_of_reads k (State.readWord_ne_zero_of_plain hnz hplain) hword
  rw [State.readBytes_of_plain _ fun _ => hplain] at hout
  rw [hafter] at hmem hkbd
  exact ⟨hwalk, hout, (hmem _ List.not_mem_nil).trans (State.word_setWord_self s _ _),
    (memWrite_memKept s _ _).trans hmem, hkbd.trans hk⟩

include hnz hplain in
/-- With a key pending the read takes it and returns 0x8000, and the gated string goes on to its end. -/
theorem strRoutine_trapEntry_at_status_of_cons (hg : s.cfg.trapReadsGated = true) (hn : n < 65536)
    (hstatus : s.reg 0 + BitVec.ofNat 16 n = s.cfg.kbsrAddr) {c : Byte} {rest : List Byte} (hk : s.kbd = c :: rest)
    (hne : s.cfg.kbsrAddr ≠ s.cfg.kbdrAddr) :
    (strRoutine k s.trapEntry).walk = none ∧ ∃ more,
      (strRoutine k s.trapEntry).out = s.out ++ s.storedBytes (strEmit k) n ++ strEmit k 0x8000 ++ more ∧
      (strRoutine k s.trapEntry).kbd <:+ rest := by
  obtain ⟨hword, hafter⟩ := State.stringRead_at_status hplain hg hstatus
  rw [State.memRead_kbsr_of_cons hne hk] at hword hafter
  have hread := Nat.forall_lt_succ_right.2 ⟨State.readWord_ne_zero_of_plain hnz hplain, by simp [hword]⟩
  obtain ⟨more, hout, hkbd⟩ := strRoutine_trapEntry_of_nonzero_reads k (by unfold walkBound; omega) hread
  rw [State.readBytes_succ, State.readBytes_of_plain _ fun _ => hplain, hword, ← List.append_assoc] at hout
  rw [hafter, State.poll_kbd_of_cons hk] at hkbd
  exact ⟨strRoutine_walk_of_gated k (s := s.trapEntry) hg, more, hout, hkbd⟩

end

/-- An instruction that is the link and a string routine meets the clauses; before `KBSR_ADDR`, less than a lap away, it
reads plain memory. -/
theorem emitsString_of_exec {i : Instr} {k : StrRoutine}
    (hexec : ∀ s, exec i s = .next (strRoutine k s.trapEntry)) : EmitsString i (strEmit k) := by
  intro s n
  refine ⟨fun hread hzero => ⟨_, hexec s, strRoutine_trapEntry_of_reads k hread hzero⟩,
    fun _ hnz hz hplain => ⟨_, hexec s, strRoutine_trapEntry_of_plain k hnz hz hplain⟩, fun hn hnz hg hstatus => ?_⟩
  have hplain (j : Nat) (hj : j < n) := add_ofNat_ne_of_lt hj hn hstatus
  refine ⟨fun hk => ⟨_, hexec s, strRoutine_trapEntry_at_status_of_nil k hnz hplain hg hstatus hk⟩,
    fun c rest hk hne => ?_⟩
  obtain ⟨hwalk, more, hrest⟩ := strRoutine_trapEntry_at_status_of_cons k hnz hplain hg hn hstatus hk hne
  exact ⟨_, more, hexec s, hwalk, hrest⟩

/-- Settles O30: the routine's bytes are the statement's, and 0x8000 has the low byte 0x00. -/
theorem putsEmitsTheLowByteOfEachWord : Obligations.PutsEmitsTheLowByteOfEachWord :=
  ⟨strEmit_puts ▸ emitsString_of_exec fun _ => rfl, by decide⟩

/-- Settles O31: the routine's bytes are the statement's, and 0x8000 has the bytes 0x00 and 0x80. -/
theorem putspEmitsLowThenNonzeroHighBytes : Obligations.PutspEmitsLowThenNonzeroHighBytes :=
  ⟨strEmit_putsp ▸ emitsString_of_exec fun _ => rfl, by decide⟩

/-! ## A string without end: past the gate, with no zero word in memory -/

/-- A string goes round the address space and starts again at R0. -/
theorem State.storedBytes_add (emit : Word → List Byte) (s : State) {m : Nat} (hm : 65536 ∣ m) (n : Nat) :
    s.storedBytes emit (m + n) = s.storedBytes emit m ++ s.storedBytes emit n := by
  have wrap (j : Nat) : BitVec.ofNat 16 (m + j) = BitVec.ofNat 16 j := by
    apply BitVec.eq_of_toNat_eq
    simp only [BitVec.toNat_ofNat]
    omega
  simp only [State.storedBytes, List.range_add, List.flatMap_append, List.flatMap_map, wrap]

/-- The state after TRAP and `l` walks of whole laps, with the routine still at work. -/
def State.afterWalks (s : State) (k : StrRoutine) (l : Nat) : State :=
  { s.trapEntry.outBytes (s.storedBytes (strEmit k) (l * walkBound s)) with walk := some k }

/-- A core turn of an endless routine is its next walk. -/
theorem step_of_walk {s : State} {k : StrRoutine} (hr : s.run = .running) (hs : s.schedule = [])
    (hw : s.walk = some k) : step s = .next (strRoutine k s) := by
  rw [step_of_core_turn hr (.inl hs) (by simp [State.holding, hw]), State.takeTurn_of_nil hs]
  simp [coreStep, hw]

section
variable {s : State} (k : StrRoutine) (hg : s.cfg.trapReadsGated = false) (hnz : ∀ a, s.word a ≠ 0x0000)
include hg hnz

theorem strRoutine_trapEntry_eq_afterWalks : strRoutine k s.trapEntry = s.afterWalks k 1 := by
  rw [strRoutine_of_no_zero k (s := s.trapEntry) hg hnz, State.afterWalks, State.trapEntry_reg_zero, Nat.one_mul]
  rfl

theorem strRoutine_afterWalks (l : Nat) : strRoutine k (s.afterWalks k l) = s.afterWalks k (l + 1) := by
  have hreg : (s.afterWalks k l).reg 0 = s.reg 0 := s.trapEntry_reg_zero
  have laps : 65536 ∣ l * walkBound s := Dvd.dvd.mul_left (Nat.dvd_mul_right _ _) l
  rw [strRoutine_of_no_zero k (s := s.afterWalks k l) hg hnz, hreg, State.afterWalks, State.afterWalks, Nat.succ_mul,
    State.storedBytes_add _ s laps, ← State.outBytes_append]
  rfl

theorem run_afterWalks (hr : s.run = .running) (hs : s.schedule = []) (n l : Nat) :
    Sys2Proof.core.run n (s.afterWalks k l) = .next (s.afterWalks k (l + n)) := by
  induction n generalizing l with
  | zero => rfl
  | succ n ih =>
    have first : step (s.afterWalks k l) = .next (s.afterWalks k (l + 1)) := by
      rw [step_of_walk (s := s.afterWalks k l) hr hs rfl, strRoutine_afterWalks k hg hnz]
    rw [core_run_succ first, ih, Nat.add_right_comm, Nat.add_assoc]

end

/-- TRAP makes the first walk and every step one more, each of at least a lap. -/
theorem emitsForEver_of_exec {i : Instr} {k : StrRoutine}
    (hexec : ∀ s, exec i s = .next (strRoutine k s.trapEntry)) : EmitsForEver i k (strEmit k) := by
  intro s hr hs hg hnz
  refine ⟨s.afterWalks k 1, by rw [hexec, strRoutine_trapEntry_eq_afterWalks k hg hnz], fun n => ?_⟩
  have emitted : n < (1 + n) * walkBound s :=
    calc n < 1 + n := by omega
      _ ≤ (1 + n) * walkBound s := Nat.le_mul_of_pos_right _ (by unfold walkBound; omega)
  exact ⟨_, _, run_afterWalks k hg hnz hr hs n 1, rfl, emitted, rfl, State.reg_setReg_self s 7 s.pc,
    RegsKept.setReg s 7 s.pc, rfl, rfl, fun _ _ => rfl, rfl, hr, rfl, hs, rfl⟩

/-- Settles O33: both routines, each with the statement's bytes. -/
theorem ungatedStringWithoutZeroIsEmittedForEver : Obligations.UngatedStringWithoutZeroIsEmittedForEver :=
  ⟨strEmit_puts ▸ emitsForEver_of_exec fun _ => rfl, strEmit_putsp ▸ emitsForEver_of_exec fun _ => rfl⟩

end Sys2Proof.Machine
end

section
/-! PROOFS of the two opcodes without an operation, RTI and RES (R125, R126): the opcode is their only named field, and their
arms leave the state after the fetch as it is. -/

namespace Sys2Proof

/-- A word of an instruction that names its opcode alone carries that field, whatever stands in ir[11:0]. -/
theorem Instr.fieldsIn_opcodeOnly {i : Instr} {op : BitVec 4} (hi : i.fields = [⟨12, 4, op⟩]) (ign : BitVec 12) :
    i.FieldsIn (op ++ ign) := by
  have hop : (op ++ ign).extractLsb' 12 4 = op := BitVec.extractLsb'_append_eq_left
  simpa only [FieldsIn, hi, List.forall_mem_singleton, NamedField.In] using hop

end Sys2Proof

namespace Sys2Proof.Machine

/-- Settles O34: the opcode fixes the instruction, and its arm is the identity on the state. -/
theorem rtiDoesNothing : Obligations.RtiDoesNothing :=
  ⟨fun ign => decode_of_fieldsIn rfl (Instr.fieldsIn_opcodeOnly rfl ign), fun _ => rfl⟩

/-- Settles O35: as O34, with the opcode of RES. -/
theorem resDoesNothing : Obligations.ResDoesNothing :=
  ⟨fun ign => decode_of_fieldsIn rfl (Instr.fieldsIn_opcodeOnly rfl ign), fun _ => rfl⟩

end Sys2Proof.Machine
end

section
/-! PROOFS of the external event, a keystroke arrival (R145): the step on a key turn is the host's whatever the CORE is
doing, and `keyArrive` writes the queue alone. -/

namespace Sys2Proof.Machine

/-- Settles O46: on a key turn the step does not look at the phase, and its state is `s` with the turn taken and the
character queued. -/
theorem keystrokeArrivalOnlyAppends : Obligations.KeystrokeArrivalOnlyAppends := by
  intro s c rest hr hs
  have regs : RegsKept [] s ((s.setSchedule rest).keyArrive c) := fun r _ => by simp
  have mem : MemKept [] s ((s.setSchedule rest).keyArrive c) := fun a _ => by simp
  exact ⟨_, step_of_key_turn hr hs, rfl, rfl, regs, mem, rfl, rfl, rfl, rfl, rfl, rfl, rfl⟩

end Sys2Proof.Machine
end

section
/-! PROOFS of the end of the run (R70, R77, R159): HALT alone writes the run flag, among the instructions and among the
steps, and what a HALT cycle leaves is what HALT does over the state its fetch leaves. -/

namespace Sys2Proof.Machine

/-! ## Who writes the run flag -/

theorem strRoutine_run (k : StrRoutine) (s : State) : (strRoutine k s).run = s.run := by
  obtain ⟨hrun, -⟩ := strRoutine_keeps k s
  exact hrun

/-- No instruction that the decoder answers writes the run flag, but for HALT (R17, R116, R117). -/
theorem exec_run_of_ne_halt {i : Instr} (hwf : i.wf = true) (hi : i ≠ .halt) {s t : State} (h : exec i s = .next t) :
    t.run = s.run := by
  cases i with
  | halt => exact absurd rfl hi
  | trap vector =>
    rw [← Host.Outcome.next.inj h, trapDispatch_of_noRoutine hwf]
    rfl
  | puts => rw [← Host.Outcome.next.inj h]; exact strRoutine_run .puts s.trapEntry
  | putsp => rw [← Host.Outcome.next.inj h]; exact strRoutine_run .putsp s.trapEntry
  | getc | out | inp | jsr | jsrr => rw [← Host.Outcome.next.inj h]; rfl
  | _ =>
    cases exec_effect h with
    | writeBack _ _ _ g | store _ _ _ g => exact g.run
    | jump | nothing => rfl
    | call _ hd | trap hd => cases hd

/-- A cycle that ends the run has fetched a HALT (R71, R116). -/
theorem decode_fetch_eq_halt_of_isFinal {s t : State} (hrun : s.run = .running) (h : cycle s = .next t) (ht : t.isFinal) :
    decode (s.memRead s.pc).1 = .halt := by
  by_contra hne
  rw [cycle_eq_exec] at h
  have hkept : t.run = s.run := (exec_run_of_ne_halt (decode_wf _) hne h).trans (s.memRead_gateOf s.pc).run
  cases ht.symm.trans (hkept.trans hrun)

/-- A step that ends the run is a cycle: a keystroke, a turn passed in the hold, the laps of a string and the completion of
a wait leave the run flag RUNNING (R70, R73, R77). -/
theorem cycleNext_of_step_isFinal {s t : State} (h : step s = .next t) (ht : t.isFinal) :
    s.cycleNext ∧ cycle s.takeTurn = .next t := by
  obtain ⟨hrun, ⟨c, rest, -, rfl⟩ | ⟨rest, -, -, rfl⟩ | ⟨k, -, rfl⟩ | hc | ⟨c, rest, -, -, -, rfl⟩ |
    ⟨c, rest, -, -, -, rfl⟩⟩ := step_cases h
  · cases ht.symm.trans hrun
  · cases ht.symm.trans hrun
  · cases ht.symm.trans ((strRoutine_run k s.takeTurn).trans hrun)
  · exact hc
  · cases ht.symm.trans hrun
  · cases ht.symm.trans hrun

/-! ## The cycle of a HALT -/

/-- The final state (R159), by what HALT does over the state that the fetch leaves. -/
theorem cycle_of_halt {s : State} (h : decode (s.memRead s.pc).1 = .halt) :
    ∃ t, cycle s = .next t ∧ t.isFinal ∧ t.pc = s.pc + 1 ∧ t.reg 7 = s.pc + 1 ∧ t.out = s.out ++ s.cfg.haltNotice ∧
      RegsKept [7] s t ∧ t.cond = s.cond ∧ MemKept [] (s.memRead s.pc).2 t ∧ t.kbd = (s.memRead s.pc).2.kbd := by
  have g := s.memRead_gateOf s.pc
  obtain ⟨t, he, hrun, hout, hkbd, hlink, hregs, hpc, hcond, hmem, -⟩ :=
    haltEmitsTheNoticeAndStops.2 ((s.memRead s.pc).2.setPc (s.pc + 1))
  refine ⟨t, by rw [cycle_eq_exec, h, he], hrun, hpc, hlink, ?_, fun r hr => (hregs r hr).trans (g.reg r),
    hcond.trans g.cond, hmem, hkbd⟩
  simpa only [State.setPc_out, State.setPc_cfg, g.out, g.cfg] using hout

/-- Settles O47: on the CORE's turn a HALT is a cycle with a final state; a step to a final state is such a cycle. -/
theorem runEndsOnlyByTheHaltTrap : Obligations.RunEndsOnlyByTheHaltTrap := by
  refine ⟨fun s hs hd => ?_, fun s t h ht => ?_⟩
  · obtain ⟨t, hc, ht, -⟩ := cycle_of_halt (s := s.takeTurn) hd
    exact ⟨t, (step_of_cycleNext hs).trans hc, ht⟩
  · obtain ⟨hs, hc⟩ := cycleNext_of_step_isFinal h ht
    have hrun : s.run = .running := hs.1
    have hd := decode_fetch_eq_halt_of_isFinal (s := s.takeTurn) hrun hc ht
    obtain ⟨u, hu, -, final⟩ := cycle_of_halt (s := s.takeTurn) hd
    obtain rfl : u = t := Host.Outcome.next.inj (hu.symm.trans hc)
    exact ⟨hs, hd, final⟩

end Sys2Proof.Machine
end

section
/-! PROOFS of the image loader (R151 to R157): what one load makes of a state, said once (`Loaded`), and what a sequence of
loads makes of it, by induction over the images. -/

namespace Sys2Proof.Machine

/-! ## The addresses of an image (R153) -/

/-- The address of word `i` of an image does not wrap. -/
theorem toNat_imageAddress {bytes : List Byte} {i : Nat} (hi : i < imageCount bytes) :
    (BitVec.ofNat 16 (imageOrigin bytes + i)).toNat = imageOrigin bytes + i := by
  unfold imageCount at hi
  rw [BitVec.toNat_ofNat, Nat.mod_eq_of_lt (by omega)]

theorem inImage_imageAddress {bytes : List Byte} {i : Nat} (hi : i < imageCount bytes) :
    inImage bytes (BitVec.ofNat 16 (imageOrigin bytes + i)) := by
  unfold inImage
  rw [toNat_imageAddress hi]
  omega

/-- The cap at the top of memory excludes no address: an image covers as many words from its origin up as it has pairs of
bytes behind the origin. -/
theorem inImage_iff_lt_length {bytes : List Byte} {a : Word} : inImage bytes a ↔
    imageOrigin bytes ≤ a.toNat ∧ a.toNat < imageOrigin bytes + (imageWords (bytes.drop 2)).length := by
  have ha := a.isLt
  rw [(imageWords_spec _).1, List.length_drop, inImage, imageCount]
  omega

/-- Word `i` of the bytes behind the origin is word `i` of the image. -/
theorem getElem_imageWords_drop {bytes : List Byte} {i : Nat} (hi : i < (imageWords (bytes.drop 2)).length) :
    (imageWords (bytes.drop 2))[i] = imageWord bytes i := by
  have hdrop (j : Nat) : (bytes.drop 2).getD j 0 = imageByte bytes (2 + j) := by
    rw [imageByte, List.getD_eq_getElem?_getD, List.getElem?_drop, List.getD_eq_getElem?_getD]
  rw [(imageWords_spec _).2 i hi, hdrop, hdrop, show 2 + (2 * i + 1) = 3 + 2 * i by omega]
  rfl

/-! ## One load (R153, R154) -/

theorem loadImage_of_length_lt {bytes : List Byte} (h : bytes.length < 2) (s : State) : loadImage bytes s = .failure := by
  match bytes, h with
  | [], _ => rfl
  | [_], _ => rfl

theorem loadImage_of_two_le {bytes : List Byte} (h : 2 ≤ bytes.length) (s : State) :
    loadImage bytes s = .success (State.storeWords (imageWords (bytes.drop 2)) (imageOrigin bytes) s) := by
  match bytes, h with
  | hi :: lo :: rest, _ =>
    have horigin : imageOrigin (hi :: lo :: rest) = (hi ++ lo : Word).toNat := (toNat_append_bytes hi lo).symm
    rw [horigin]
    rfl

/-- `t` is `s` with the words of the image stored, and nothing else changed. -/
structure Loaded (bytes : List Byte) (s t : State) : Prop where
  word_of_in : ∀ a, inImage bytes a → t.word a = imageWord bytes (a.toNat - imageOrigin bytes)
  word_of_not_in : ∀ a, ¬ inImage bytes a → t.word a = s.word a
  frame : t = { s with mem := t.mem }
  wf : s.mem.wf = true → t.mem.wf = true

theorem exists_loaded {bytes : List Byte} (h : 2 ≤ bytes.length) (s : State) :
    ∃ t, loadImage bytes s = .success t ∧ Loaded bytes s t := by
  refine ⟨_, loadImage_of_two_le h s, fun a ha => ?_, fun a ha => ?_, State.storeWords_frame _ _ s,
    State.storeWords_wf _ _⟩
  · rw [State.word_storeWords, dif_pos (inImage_iff_lt_length.1 ha), getElem_imageWords_drop]
  · rw [State.word_storeWords, dif_neg (inImage_iff_lt_length.not.1 ha)]

theorem Loaded.word_imageAddress {bytes : List Byte} {s t : State} (h : Loaded bytes s t) {i : Nat}
    (hi : i < imageCount bytes) : t.word (BitVec.ofNat 16 (imageOrigin bytes + i)) = imageWord bytes i := by
  rw [h.word_of_in _ (inImage_imageAddress hi), toNat_imageAddress hi, Nat.add_sub_cancel_left]

/-- Settles O58: the two lengths, and the words and the frame of a load. -/
theorem loadWritesItsWordsAndNothingElse : Obligations.LoadWritesItsWordsAndNothingElse := by
  refine fun bytes s => ⟨fun h => loadImage_of_length_lt h s, fun h => ?_⟩
  obtain ⟨t, ht, loaded⟩ := exists_loaded h s
  refine ⟨t, ht, fun i hi => loaded.word_imageAddress hi, loaded.word_of_not_in, ?_⟩
  rw [loaded.frame]
  exact ⟨fun _ _ => rfl, rfl, rfl, ⟨rfl, rfl⟩, rfl, rfl, rfl, rfl, rfl⟩

/-! ## A sequence of loads (R151, R155, R156) -/

theorem loadImages_cons_of_length_lt {bytes : List Byte} (h : bytes.length < 2) (rest : List (List Byte)) (s : State) :
    loadImages (bytes :: rest) s = none := by
  rw [loadImages, loadImage_of_length_lt h]

theorem loadImages_cons_of_two_le {bytes : List Byte} (h : 2 ≤ bytes.length) (rest : List (List Byte)) (s : State) :
    ∃ u, Loaded bytes s u ∧ loadImages (bytes :: rest) s = loadImages rest u := by
  obtain ⟨u, hu, loaded⟩ := exists_loaded h s
  exact ⟨u, loaded, by rw [loadImages, hu]⟩

/-- A sequence that loads whole has loaded its first image, then the others. -/
theorem loadImages_cons {bytes : List Byte} {rest : List (List Byte)} {s t : State}
    (h : loadImages (bytes :: rest) s = some t) : ∃ u, Loaded bytes s u ∧ loadImages rest u = some t := by
  rcases Nat.lt_or_ge bytes.length 2 with hlt | hle
  · cases (loadImages_cons_of_length_lt hlt rest s).symm.trans h
  · obtain ⟨u, loaded, hu⟩ := loadImages_cons_of_two_le hle rest s
    exact ⟨u, loaded, hu.symm.trans h⟩

/-- The later images of such a sequence are loaded over what the earlier ones leave. -/
theorem exists_loadImages_of_append {before later : List (List Byte)} {s t : State}
    (h : loadImages (before ++ later) s = some t) : ∃ u, loadImages later u = some t := by
  induction before generalizing s with
  | nil => exact ⟨s, h⟩
  | cons bytes rest ih =>
    obtain ⟨u, -, hu⟩ := loadImages_cons h
    exact ih hu

theorem loadImages_eq_none_iff {images : List (List Byte)} {s : State} :
    loadImages images s = none ↔ ∃ bytes ∈ images, bytes.length < 2 := by
  induction images generalizing s with
  | nil => simp [loadImages]
  | cons bytes rest ih =>
    rw [List.exists_mem_cons_iff]
    rcases Nat.lt_or_ge bytes.length 2 with hlt | hle
    · exact iff_of_true (loadImages_cons_of_length_lt hlt rest s) (.inl hlt)
    · obtain ⟨u, -, hu⟩ := loadImages_cons_of_two_le hle rest s
      rw [hu, ih, or_iff_right (Nat.not_lt.2 hle)]

/-- Loads change nothing but memory, and keep it canonical. -/
theorem loadImages_frame {images : List (List Byte)} {s t : State} (h : loadImages images s = some t) :
    t = { s with mem := t.mem } ∧ (s.mem.wf = true → t.mem.wf = true) := by
  induction images generalizing s with
  | nil =>
    obtain rfl : s = t := Option.some.inj h
    exact ⟨rfl, id⟩
  | cons bytes rest ih =>
    obtain ⟨u, loaded, hu⟩ := loadImages_cons h
    obtain ⟨hframe, hwf⟩ := ih hu
    refine ⟨?_, hwf ∘ loaded.wf⟩
    rw [loaded.frame] at hframe
    exact hframe

/-- A word that no image covers is as before the loads. -/
theorem loadImages_word_of_not_in {images : List (List Byte)} {s t : State} (h : loadImages images s = some t)
    {a : Word} (ha : ∀ img ∈ images, ¬ inImage img a) : t.word a = s.word a := by
  induction images generalizing s with
  | nil => rw [Option.some.inj h]
  | cons bytes rest ih =>
    obtain ⟨hbytes, hrest⟩ := List.forall_mem_cons.1 ha
    obtain ⟨u, loaded, hu⟩ := loadImages_cons h
    exact (ih hu hrest).trans (loaded.word_of_not_in a hbytes)

/-- A word of an image that no later image covers is in its place, whatever was loaded before (R156). -/
theorem loadImages_word_imageAddress {before later : List (List Byte)} {img : List Byte} {s t : State}
    (h : loadImages (before ++ img :: later) s = some t) {i : Nat} (hi : i < imageCount img)
    (hlater : ∀ img' ∈ later, ¬ inImage img' (BitVec.ofNat 16 (imageOrigin img + i))) :
    t.word (BitVec.ofNat 16 (imageOrigin img + i)) = imageWord img i := by
  obtain ⟨u, hu⟩ := exists_loadImages_of_append h
  obtain ⟨v, loaded, hv⟩ := loadImages_cons hu
  exact (loadImages_word_of_not_in hv hlater).trans (loaded.word_imageAddress hi)

/-- Settles O59: the second image is the last of the two, and the first has only the second behind it. -/
theorem laterImageWinsAndDisjointImagesCoexist : Obligations.LaterImageWinsAndDisjointImagesCoexist := by
  intro img1 img2 s h1 h2
  have hlong : ¬ ∃ bytes ∈ [img1, img2], bytes.length < 2 := by
    rintro ⟨bytes, hmem, hlt⟩
    rcases List.mem_pair.1 hmem with rfl | rfl <;> omega
  obtain ⟨u, hu⟩ := Option.ne_none_iff_exists'.1 (loadImages_eq_none_iff (s := s).not.2 hlong)
  refine ⟨u, hu, fun i hi => ?_, fun i hi hn => ?_, fun a ha1 ha2 => ?_⟩
  · exact loadImages_word_imageAddress (before := [img1]) hu hi (by simp)
  · exact loadImages_word_imageAddress (before := []) hu hi (by simpa using hn)
  · exact loadImages_word_of_not_in hu (by simp [ha1, ha2])

/-! ## The launch (R157) -/

theorem State.reset_withMem_inv {m : Memory} (hm : m.wf = true) : ({ State.reset with mem := m } : State).Inv := by
  obtain ⟨-, hreset⟩ := resetMeetsTheInvariant
  exact ⟨hm, hreset⟩

/-- Settles O60: the laws of a sequence of loads, from reset. -/
theorem launchStartsFromResetWithTheImages : Obligations.LaunchStartsFromResetWithTheImages := by
  refine ⟨fun images s h => ?_, fun images => loadImages_eq_none_iff⟩
  obtain ⟨hframe, hwf⟩ := loadImages_frame h
  refine ⟨hframe, ?_, ?_, fun a ha => loadImages_word_of_not_in h ha⟩
  · rw [hframe]
    exact State.reset_withMem_inv (hwf rfl)
  · rintro before img later rfl i hi hlater
    exact loadImages_word_imageAddress h hi hlater

end Sys2Proof.Machine
end
